-- ==== Sys2Proof/Word.lean ====
section
/-! DEFINITION. The word types of CMSE: bytes of the frame buffer, 32-bit command and response words,
two-bit colours (spec/30_encoding.md R60, R64, R66; spec/00_scope.md R8, R9). -/

namespace Sys2Proof

/-- One byte: a frame-buffer position, a bit mask, a byte on the bus (R8, R9). -/
abbrev Byte := BitVec 8

/-- A command word or the response word: 32 bits (R60, R66). -/
abbrev Word := BitVec 32

/-- A colour code: bit 1 is plane A and bit 0 is plane B on M8X8X2 (R64). On the monochrome topologies
bit 0 is the boolean and bit 1 is 0 (R65). -/
abbrev Colour := BitVec 2

/-- Off, on every topology (R64, R65, spec/42_shift.md section 3). -/
def Colour.off : Colour := 0#2

/-- Green: plane B only (R64). -/
def Colour.green : Colour := 1#2

/-- Red: plane A only (R64). -/
def Colour.red : Colour := 2#2

/-- Yellow: both planes (R64). -/
def Colour.yellow : Colour := 3#2

end Sys2Proof
end

