-- ==== Sys2Proof/Config.lean ====
section
/-! DEFINITION. What an implementation or an installation fixes: the topology names, the named parameters
of spec/00_scope.md R6 and R7, the values State.reset takes where the spec leaves a parameter, and the one
free value of the model. -/

namespace Sys2Proof

/-- The four wiring topologies (R6), "Immutable, fixed at construction" (R22). -/
inductive Topology where
  /-- code 0: "Matrix8x8", single 8x8 -/
  | m8x8
  /-- code 1: "Matrix16x8 (chained)" -/
  | m16x8c
  /-- code 2: "MatrixBackpack16x8 (dual...)" -/
  | m16x8d
  /-- code 3: "Matrix8x8x2 (bi-color)" -/
  | m8x8x2
  deriving DecidableEq, Repr

/-- FLUSH_COALESCING (R7, R139). -/
inductive Coalescing where
  /-- the default: one frame after every unit shift (R138) -/
  | exactFrames
  /-- frames before the last of a command may be omitted (R139) -/
  | coalesced
  deriving DecidableEq, Repr

/-- BICOLOR_SETP_FRAMES (R7, R113). -/
inductive SetpFrames where
  /-- the default: one frame after both planes -/
  | one
  /-- a frame after each plane -/
  | two
  deriving DecidableEq, Repr

/-- The parameters that reset takes (R7, R31, R190): the straps TOPOLOGY and BUS_ADDRESS, the arbitrary
contents FB_RESET and CTRL_RESET, and the two implementation parameters. -/
structure ResetParams where
  topology   : Topology
  busAddress : Byte
  fbReset    : Vector Byte 16
  blinkReset : BitVec 2
  brightReset : BitVec 4
  setpFrames : SetpFrames
  coalescing : Coalescing
  deriving DecidableEq, Repr

/-- What a position that the memory list does not hold reads as. For FB[0] it is the constant the spec
gives (R23). For FB[1..16] it is DESIGN CHOICE, log 5: the spec leaves FB_RESET open. -/
def Config.fbUnlisted : Byte := 0x00#8

/-- The parameters of State.reset. The frame counts are the defaults of R7. DESIGN CHOICE: the topology
(log 3), the bus address (log 4), FB_RESET (log 5) and CTRL_RESET (log 6). -/
def Config.resetParams : ResetParams where
  topology := .m8x8
  busAddress := 0x70#8
  fbReset := Vector.replicate 16 Config.fbUnlisted
  blinkReset := 0#2
  brightReset := 0#4
  setpFrames := .one
  coalescing := .exactFrames

/-- FREE VALUE (log 10): whether a coalescing implementation omits the frame at its k-th free choice. R139
allows it to "omit any of the frames" before the last, and fixes no choice. No body: nothing is known of it. -/
opaque Config.omitsFrame : Nat → Bool

end Sys2Proof
end

