-- ==== Sys2Proof/Syntax.lean ====
section
/-! DEFINITION. The syntax, whole: one constructor of Instr for each of the seventeen rows of
spec/opcode_table.json: the thirteen host commands of spec/30_encoding.md R62 and the four bus-side rows of
R70 to R73. -/

namespace Sys2Proof

/-- The two planes of the bi-colour topology (R90, R96). -/
inductive Plane where
  | a
  | b
  deriving DecidableEq, Repr

/-- The sixteen data bytes of a flush frame, FB[1] first (R73). -/
abbrev FrameData := Vector Byte 16

/-- How an instruction is written: a 32-bit command word on the host port (R60), or the byte sequence of
one bus write (R74). -/
inductive Code where
  | word (w : Word)
  | bytes (bs : List Byte)
  deriving DecidableEq, Repr

/-- The rows of the opcode table. Coordinates, displacements, sizes and positions are mathematical
integers: every rule of the spec is stated on integers (R63, log 11). -/
inductive Instr where
  /-- MAP x, y, plane (R97) -/
  | map (x y : Int) (p : Plane)
  /-- GETP x, y (R110) -/
  | getp (x y : Int)
  /-- SETP x, y, colour (R112) -/
  | setp (x y : Int) (c : Colour)
  /-- FILL colour (R114) -/
  | fill (c : Colour)
  /-- LOADIMG width, height (R116) -/
  | loadimg (w h : Nat)
  /-- SHIFT dx, dy, wrap (R130) -/
  | shift (dx dy : Int) (wrap : Bool)
  /-- RDBIT position, mask (R150) -/
  | rdbit (i : Nat) (m : Byte)
  /-- WRBIT position, mask, value (R151) -/
  | wrbit (i : Nat) (m : Byte) (v : Bool)
  /-- FILLRAW byte (R152) -/
  | fillraw (b : Byte)
  /-- FLUSH (R154) -/
  | flush
  /-- INIT (R155) -/
  | init
  /-- BLINK rate, before the mask to 2 bits (R156) -/
  | blink (rate : Byte)
  /-- BRIGHT level, before the mask to 4 bits (R157) -/
  | bright (level : Byte)
  /-- OSC_ON, bus side (R70) -/
  | oscOn
  /-- BLINK_CMD, bus side (R71) -/
  | blinkCmd (rate : BitVec 2)
  /-- BRIGHT_CMD, bus side (R72) -/
  | brightCmd (level : BitVec 4)
  /-- FRAME, bus side (R73) -/
  | frame (data : FrameData)
  deriving DecidableEq, Repr

end Sys2Proof
end

