-- ==== Sys2Proof/WellFormed.lean ====
section
/-! DEFINITION. Well-formed instructions: every operand fits the field that carries it
(spec/30_encoding.md R63). The further conditions of R62, which depend on TOPO or on an operand's value, are no
matter of form: a word that fails one is decoded and is then an illegal command (R68, R175). -/

namespace Sys2Proof

/-- An integer that an 8-bit two's-complement field holds: -128 to 127 (R63). -/
def fitsSigned8 (x : Int) : Bool := decide (-128 ≤ x) && decide (x ≤ 127)

/-- A number that an 8-bit unsigned field holds: 0 to 255 (R63). -/
def fitsUnsigned8 (n : Nat) : Bool := decide (n ≤ 255)

/-- Every operand fits its field. -/
def Instr.wf : Instr → Bool
  | .map x y _ => fitsSigned8 x && fitsSigned8 y
  | .getp x y => fitsSigned8 x && fitsSigned8 y
  | .setp x y _ => fitsSigned8 x && fitsSigned8 y
  | .fill _ => true
  | .loadimg w h => fitsUnsigned8 w && fitsUnsigned8 h
  | .shift dx dy _ => fitsSigned8 dx && fitsSigned8 dy
  | .rdbit i _ => fitsUnsigned8 i
  | .wrbit i _ _ => fitsUnsigned8 i
  | .fillraw _ => true
  | .flush => true
  | .init => true
  | .blink _ => true
  | .bright _ => true
  | .oscOn => true
  | .blinkCmd _ => true
  | .brightCmd _ => true
  | .frame _ => true

end Sys2Proof
end

