-- ==== Sys2Proof/Decode.lean ====
section
/-! DEFINITION. Decoding and encoding: the command word (spec/30_encoding.md R60 to R63), the bus-side bytes
(R70 to R74), the decoder that rejects by name, the encoder written from the same tables, and the host's entry
decodeTableWord. -/

namespace Sys2Proof

/-- Why a code is no instruction. -/
inductive DecodeError where
  /-- OP is 0x0, 0x7 or 0xF (R68) -/
  | reservedOpcode
  /-- a reserved bit or a field the command does not use is not zero (R60, R68) -/
  | unusedFieldNotZero
  /-- a one-byte bus write that is none of R70, R71, R72 -/
  | notABusByte
  /-- a 17-byte bus write that does not begin with 0x00 (R73) -/
  | frameRegisterNotZero
  /-- a bus write of a length other than 1 and 17 (R74) -/
  | badBusLength
  deriving DecidableEq, Repr

/-! ### The fields of a command word (R60) -/

/-- OP, bits 31:28. -/
def fieldOP (w : Word) : BitVec 4 := w.extractLsb' 28 4

/-- W, bit 18. -/
def fieldW (w : Word) : Bool := w.getLsbD 18

/-- C, bits 17:16. -/
def fieldC (w : Word) : BitVec 2 := w.extractLsb' 16 2

/-- B, bits 15:8. -/
def fieldB (w : Word) : Byte := w.extractLsb' 8 8

/-- A, bits 7:0. -/
def fieldA (w : Word) : Byte := w.extractLsb' 0 8

/-- `sext_8`: the field as a two's-complement integer (R10, R63). -/
def sext8 (b : Byte) : Int := b.toInt

/-- `zext_8`: the field as an unsigned number (R10, R63). -/
def zext8 (b : Byte) : Nat := b.toNat

/-- C[0] of MAP: 0 is plane A, 1 is plane B (R63). -/
def planeOf (c : BitVec 2) : Plane := if c.getLsbD 0 then .b else .a

/-- The word decodes to `i` if it passes the row's mask and match (R62); if not, a reserved bit or an
unused field is set (R68). -/
def underMask (w mask pattern : Word) (i : Instr) : Except DecodeError Instr :=
  if w &&& mask = pattern then .ok i else .error .unusedFieldNotZero

/-- The opcode map: OP selects the row, the row's mask must hold (R62, R68). -/
def decodeWord (w : Word) : Except DecodeError Instr :=
  match (fieldOP w).toNat with
  | 0x1 => underMask w 0xFFFE0000#32 0x10000000#32 (.map (sext8 (fieldA w)) (sext8 (fieldB w)) (planeOf (fieldC w)))
  | 0x2 => underMask w 0xFFFF0000#32 0x20000000#32 (.getp (sext8 (fieldA w)) (sext8 (fieldB w)))
  | 0x3 => underMask w 0xFFFC0000#32 0x30000000#32 (.setp (sext8 (fieldA w)) (sext8 (fieldB w)) (fieldC w))
  | 0x4 => underMask w 0xFFFCFFFF#32 0x40000000#32 (.fill (fieldC w))
  | 0x5 => underMask w 0xFFFF0000#32 0x50000000#32 (.loadimg (zext8 (fieldA w)) (zext8 (fieldB w)))
  | 0x6 => underMask w 0xFFFB0000#32 0x60000000#32 (.shift (sext8 (fieldA w)) (sext8 (fieldB w)) (fieldW w))
  | 0x8 => underMask w 0xFFFF0000#32 0x80000000#32 (.rdbit (zext8 (fieldB w)) (fieldA w))
  | 0x9 => underMask w 0xFFFE0000#32 0x90000000#32 (.wrbit (zext8 (fieldB w)) (fieldA w) ((fieldC w).getLsbD 0))
  | 0xA => underMask w 0xFFFFFF00#32 0xA0000000#32 (.fillraw (fieldA w))
  | 0xB => underMask w 0xFFFFFFFF#32 0xB0000000#32 .flush
  | 0xC => underMask w 0xFFFFFFFF#32 0xC0000000#32 .init
  | 0xD => underMask w 0xFFFFFF00#32 0xD0000000#32 (.blink (fieldA w))
  | 0xE => underMask w 0xFFFFFF00#32 0xE0000000#32 (.bright (fieldA w))
  | _ => .error .reservedOpcode

/-! ### The bus-side bytes the source fixes (R70 to R74) -/

/-- Oscillator enable (R70). -/
def oscOnByte : Byte := 0x21#8

/-- Blink command: base 0x80, display-on bit 0x01, rate<<1 (R71). -/
def blinkByte (rate : BitVec 2) : Byte := 0x80#8 ||| 0x01#8 ||| (rate.setWidth 8 <<< 1)

/-- Brightness command: base 0xE0 with the 4-bit level (R72). -/
def brightByte (level : BitVec 4) : Byte := 0xE0#8 ||| level.setWidth 8

/-- The flush frame: 0x00, then the sixteen data bytes in ascending position (R73). -/
def frameBytes (data : FrameData) : List Byte := 0x00#8 :: data.toList

/-- A bus write of one byte (R70 to R72). -/
def decodeBusByte (b : Byte) : Except DecodeError Instr :=
  if b = oscOnByte then .ok .oscOn
  else if b &&& 0xF9#8 = 0x81#8 then .ok (.blinkCmd (b.extractLsb' 1 2))
  else if b &&& 0xF0#8 = 0xE0#8 then .ok (.brightCmd (b.extractLsb' 0 4))
  else .error .notABusByte

/-- A bus write, told apart by its length and its first byte (R74). -/
def decodeBus : List Byte → Except DecodeError Instr
  | [] => .error .badBusLength
  | [b] => decodeBusByte b
  | z :: data =>
    if h : data.length = 16 then
      if z = 0x00#8 then .ok (.frame ⟨data.toArray, by simpa using h⟩) else .error .frameRegisterNotZero
    else .error .badBusLength

/-- The decoder, total on every code, rejecting by name. -/
def decode : Code → Except DecodeError Instr
  | .word w => decodeWord w
  | .bytes bs => decodeBus bs

/-! ### The encoder -/

/-- A command word from its fields, most significant first as in the picture of R61. -/
def cmdWord (op : BitVec 4) (w : Bool) (c : BitVec 2) (b a : Byte) : Word :=
  op ++ 0#9 ++ BitVec.ofBool w ++ c ++ b ++ a

/-- An integer as an 8-bit two's-complement field. -/
def signedField (x : Int) : Byte := BitVec.ofInt 8 x

/-- A number as an 8-bit unsigned field. -/
def unsignedField (n : Nat) : Byte := BitVec.ofNat 8 n

/-- C for a plane (R63). -/
def planeField : Plane → BitVec 2
  | .a => 0#2
  | .b => 1#2

/-- C for a bit value (R63). -/
def valueField (v : Bool) : BitVec 2 := if v then 1#2 else 0#2

/-- The code of an instruction, from the tables of R60 to R63 and R70 to R73. -/
def encode : Instr → Code
  | .map x y p => .word (cmdWord 0x1#4 false (planeField p) (signedField y) (signedField x))
  | .getp x y => .word (cmdWord 0x2#4 false 0#2 (signedField y) (signedField x))
  | .setp x y c => .word (cmdWord 0x3#4 false c (signedField y) (signedField x))
  | .fill c => .word (cmdWord 0x4#4 false c 0#8 0#8)
  | .loadimg w h => .word (cmdWord 0x5#4 false 0#2 (unsignedField h) (unsignedField w))
  | .shift dx dy wrap => .word (cmdWord 0x6#4 wrap 0#2 (signedField dy) (signedField dx))
  | .rdbit i m => .word (cmdWord 0x8#4 false 0#2 (unsignedField i) m)
  | .wrbit i m v => .word (cmdWord 0x9#4 false (valueField v) (unsignedField i) m)
  | .fillraw b => .word (cmdWord 0xA#4 false 0#2 0#8 b)
  | .flush => .word (cmdWord 0xB#4 false 0#2 0#8 0#8)
  | .init => .word (cmdWord 0xC#4 false 0#2 0#8 0#8)
  | .blink rate => .word (cmdWord 0xD#4 false 0#2 0#8 rate)
  | .bright level => .word (cmdWord 0xE#4 false 0#2 0#8 level)
  | .oscOn => .bytes [oscOnByte]
  | .blinkCmd rate => .bytes [blinkByte rate]
  | .brightCmd level => .bytes [brightByte level]
  | .frame data => .bytes (frameBytes data)

/-! ### The host's entry -/

/-- The bytes of a bus-side row whose bits are `w`, first byte in bits 7:0: seventeen bytes if the first is
0x00 (the frame; bits above those given are 0), otherwise as many as `nbits` says. -/
def busBytesOf (nbits w : Nat) : List Byte :=
  let n := if w % 256 = 0 then 17 else max 1 (nbits / 8)
  (List.range n).map fun k => BitVec.ofNat 8 (w / 256 ^ k)

/-- The code of a table row: 32-bit rows are command words, the others bus-side bytes. -/
def codeOf (nbits w : Nat) : Code :=
  if nbits = 32 then .word (BitVec.ofNat 32 w) else .bytes (busBytesOf nbits w)

/-- The instruction the decoder reads from an instruction whose bits are `w`, numbered as
spec/opcode_table.json numbers them. -/
def decodeTableWord (nbits w : Nat) : Option Instr :=
  (decode (codeOf nbits w)).toOption

end Sys2Proof
end

