-- ==== Sys2Proof/Machine/Memory.lean ====
section
/-! DEFINITION. The memory of CMSE as plain data: the frame buffer as a list of (position, byte) pairs in one
canonical form (spec/10_state.md R23, spec/20_memory.md R40, R44). -/

namespace Sys2Proof.Machine

/-- Listed bytes of the frame buffer; a position that is not listed reads as Config.fbUnlisted. -/
abbrev Memory := List Host.Cell

/-- The byte listed at a position, or the unlisted byte. -/
def Memory.read : Memory → Nat → Byte
  | [], _ => Config.fbUnlisted
  | (a, v) :: m, i => if a = i then v else Memory.read m i

/-- Take a position out of the list. -/
def Memory.erase : Memory → Nat → Memory
  | [], _ => []
  | (a, v) :: m, i => if a = i then Memory.erase m i else (a, v) :: Memory.erase m i

/-- Put a pair in before the first greater position. -/
def Memory.insert : Memory → Nat → Byte → Memory
  | [], i, v => [(i, v)]
  | (a, b) :: m, i, v => if i < a then (i, v) :: (a, b) :: m else (a, b) :: Memory.insert m i v

/-- Write one byte; writing the unlisted byte removes the entry, so equal memories are equal lists. -/
def Memory.write (m : Memory) (i : Nat) (v : Byte) : Memory :=
  if v = Config.fbUnlisted then Memory.erase m i else Memory.insert (Memory.erase m i) i v

/-- Positions strictly rising from `lo` on and at most 16, no listed byte equal to the unlisted byte. -/
def Memory.wfFrom : Nat → Memory → Bool
  | _, [] => true
  | lo, (a, v) :: m => decide (lo ≤ a) && decide (a ≤ 16) && (v != Config.fbUnlisted) && Memory.wfFrom (a + 1) m

/-- The canonical form of the frame buffer: only positions 1 to 16 are listed (position 0 is the constant of
R23), strictly rising, none with the unlisted byte. -/
def Memory.wf (m : Memory) : Bool := Memory.wfFrom 1 m

/-- Sixteen data bytes as a memory, the first at position 1. -/
def Memory.ofData (d : Vector Byte 16) : Memory :=
  (List.range 16).foldl (fun m k => Memory.write m (k + 1) (d.toList.getD k Config.fbUnlisted)) []

/-- A byte of the frame buffer: positions 1 to 16 from memory; position 0 is hardwired 0x00 (R23), and so
reads every other position, which no rule reads (log 16). -/
def fbRead (m : Memory) (i : Nat) : Byte :=
  if 1 ≤ i ∧ i ≤ 16 then Memory.read m i else 0x00#8

/-- A byte write to the frame buffer, 1 to 16 only; a write to position 0 "is not expressible by any rule"
(spec/00_scope.md R11) and has no effect (R23, log 16). -/
def fbWrite (m : Memory) (i : Nat) (v : Byte) : Memory :=
  if 1 ≤ i ∧ i ≤ 16 then Memory.write m i v else m

/-- The sixteen data bytes, FB[1] first: what a frame read sees (R44, R73). -/
def fbData (m : Memory) : Vector Byte 16 :=
  Vector.ofFn fun k => fbRead m (k.val + 1)

end Sys2Proof.Machine
end

