-- ==== Sys2Proof/Machine/State.lean ====
section
/-! DEFINITION. The state of CMSE as plain data, the reasons a step can stop, and the state after reset
(spec/10_state.md; INVENTORY.md lists every field with its rule and its reset value). -/

namespace Sys2Proof.Machine

open Sys2Proof

/-- The sink's answer to a bus write (R27). The error code is opaque, 16 bits, passed on unchanged (R67, U6). -/
inductive BusAnswer where
  | ok
  | err (e : BitVec 16)
  deriving DecidableEq, Repr

/-- One entry of the bus trace: address, bytes, answer (R27). -/
structure BusEntry where
  addr   : Byte
  bytes  : List Byte
  answer : BusAnswer
  deriving DecidableEq, Repr

/-- The answers the transport will give, oldest first, and the answer it gives when that list is at its end:
a free draw at every bus write, held as plain data (R13, R27, U5, log 7). -/
structure Sink where
  script : List BusAnswer
  rest   : BusAnswer
  deriving DecidableEq, Repr

/-- What the chip's display RAM holds (R28): sixteen bytes, DEV[1] first, or nothing known (log 9). -/
inductive Dev where
  | unknown
  | holds (ram : Vector Byte 16)
  deriving DecidableEq, Repr

/-- An image source: rows of two-bit samples, row 0 first; a sample outside the list is Off (R117, log 8). -/
abbrev Image := List (List Colour)

/-- What the host presents: a code, and the image source it answers from while that command runs. -/
structure Request where
  code : Code
  src  : Image
  deriving DecidableEq, Repr

/-- Everything the spec gives the machine. -/
structure State where
  /-- TOPO (R22) -/
  topo       : Topology
  /-- BUSADDR (R22) -/
  busAddr    : Byte
  /-- BICOLOR_SETP_FRAMES (R7, R113) -/
  setpFrames : SetpFrames
  /-- FLUSH_COALESCING (R7, R139) -/
  coalescing : Coalescing
  /-- FB[0..16] (R23) -/
  fb         : Memory
  /-- BLINK (R24) -/
  blink      : BitVec 2
  /-- BRIGHT (R25) -/
  bright     : BitVec 4
  /-- RESP (R26, R66) -/
  resp       : Word
  /-- BUS, the bus trace, in emission order (R27) -/
  bus        : List BusEntry
  /-- DEV[1..16] (R28) -/
  dev        : Dev
  /-- the current command word (R20, R60; log 13) -/
  cmd        : Word
  /-- the host port: what has been presented and not yet accepted, oldest first (R21; log 2) -/
  port       : List Request
  /-- Src of the current command (R117; log 8) -/
  src        : Image
  /-- Sink (R27; log 7) -/
  sink       : Sink
  /-- the model's own: how many free choices of R139 have been taken (log 10) -/
  draws      : Nat
  deriving DecidableEq, Repr

/-- The one reason the model stops. CMSE itself has none: every outcome of a command is a value of RESP and
the next command is accepted (R170, R176). -/
inductive Fault where
  /-- Raised by step for bus-side bytes that are none of the four shapes of R27: CMSE emits no such bytes and
  the spec gives them no effect (R74, log 14). Safe: the model stops. -/
  | notABusWrite
  deriving DecidableEq, Repr

/-- Why an instruction has no meaning in the model. -/
inductive Refusal where
  /-- Raised by exec's arm of an instruction that has no meaning yet. No arm is one. Safe: the model stops. -/
  | notModelled (mnemonic : String)
  deriving DecidableEq, Repr

/-- The state after reset, for any straps and any open contents (R31, R190): RESP zero, the trace empty, DEV
unknown, nothing presented, and no bus write made. -/
def State.resetWith (p : ResetParams) : State where
  topo := p.topology
  busAddr := p.busAddress
  setpFrames := p.setpFrames
  coalescing := p.coalescing
  fb := Memory.ofData p.fbReset
  blink := p.blinkReset
  bright := p.brightReset
  resp := 0x00000000#32
  bus := []
  dev := .unknown
  cmd := 0x00000000#32
  port := []
  src := []
  sink := { script := [], rest := .ok }
  draws := 0

/-- The state after reset for the parameters Config.resetParams names (logs 3 to 8, 10, 13). -/
def State.reset : State := State.resetWith Config.resetParams

end Sys2Proof.Machine
end

