-- ==== Sys2Proof/Machine/Flags.lean ====
section
/-! DEFINITION. RESP, the only flag-like state (spec/10_state.md R26): its fields, and the word every outcome
writes (spec/30_encoding.md R66, R67). -/

namespace Sys2Proof.Machine

open Sys2Proof

/-- A response word from its fields (R66). -/
def respWord (status : BitVec 4) (valid : Bool) (p1 p0 : Byte) : Word :=
  status ++ 0#11 ++ BitVec.ofBool valid ++ p1 ++ p0

/-- STATUS, bits 31:28 (R66). -/
def respStatus (r : Word) : BitVec 4 := r.extractLsb' 28 4

/-- Bits 27:17, always 0 (R66). -/
def respZero (r : Word) : BitVec 11 := r.extractLsb' 17 11

/-- VALID, bit 16 (R66). -/
def respValid (r : Word) : Bool := r.getLsbD 16

/-- The payload, P1 and P0, bits 15:0 (R66). -/
def respPayload (r : Word) : BitVec 16 := r.extractLsb' 0 16

/-- Why a command ends otherwise than completed (R170). -/
inductive Raised where
  | illegalCommand
  | dimensionMismatch
  | transportError (e : BitVec 16)
  deriving DecidableEq, Repr

/-- The word of a completed command that returns nothing, and of an absent result (R67, D9). -/
def respNothing : Word := respWord 0#4 false 0#8 0#8

/-- The word of a present result (R67). -/
def respPresent (p1 p0 : Byte) : Word := respWord 0#4 true p1 p0

/-- The word of an outcome that is raised (R67). -/
def respRaised : Raised → Word
  | .illegalCommand => respWord 1#4 false 0#8 0#8
  | .dimensionMismatch => respWord 2#4 false 0#8 0#8
  | .transportError e => respWord 3#4 false (e.extractLsb' 8 8) (e.extractLsb' 0 8)

end Sys2Proof.Machine
end

