-- ==== Sys2Proof/Machine/Operands.lean ====
section
/-! DEFINITION. What the operand forms mean: the topology's extents and code (spec/00_scope.md R6), the
conditions of spec/30_encoding.md R62 that depend on TOPO or on an operand's value, the colour's plane bits
(R64, R65), the masked rate and level (R63), and the samples of an image (spec/41_pixel_ops.md R117). -/

namespace Sys2Proof.Machine

open Sys2Proof

/-- The code of TOPO, 2 bits (R6). -/
def topoCode : Topology → BitVec 2
  | .m8x8 => 0#2
  | .m16x8c => 1#2
  | .m16x8d => 2#2
  | .m8x8x2 => 3#2

/-- `columns(TOPO)` (R6, R22). -/
def columns : Topology → Nat
  | .m8x8 => 8
  | .m16x8c => 16
  | .m16x8d => 16
  | .m8x8x2 => 8

/-- `rows(TOPO)` (R6, R22). -/
def rows : Topology → Nat
  | .m8x8 => 8
  | .m16x8c => 8
  | .m16x8d => 8
  | .m8x8x2 => 8

/-- MAP's condition: the plane select is 0 unless TOPO is M8X8X2 (R62, R97). -/
def planeLegal (t : Topology) (p : Plane) : Bool := decide (t = .m8x8x2) || decide (p = .a)

/-- SETP's and FILL's condition: C[1] is 0 unless TOPO is M8X8X2 (R62, R65). -/
def colourLegal (t : Topology) (c : Colour) : Bool := decide (t = .m8x8x2) || !c.getLsbD 1

/-- RDBIT's and WRBIT's condition: the position is 1 to 16 (R62, R150, R151). -/
def positionLegal (i : Nat) : Bool := decide (1 ≤ i) && decide (i ≤ 16)

/-- FILLRAW's condition: the byte is 0x00 or 0xFF (R62, R152). -/
def rawByteLegal (b : Byte) : Bool := decide (b = 0x00#8) || decide (b = 0xFF#8)

/-- LOADIMG's condition: the size offered is the matrix's (R116). -/
def sizeMatches (t : Topology) (w h : Nat) : Bool := decide (w = columns t) && decide (h = rows t)

/-- The plane A bit of a colour, c[1] (R64). -/
def planeABit (c : Colour) : Bool := c.getLsbD 1

/-- The plane B bit of a colour, c[0]; on a monochrome topology, the boolean (R64, R65). -/
def planeBBit (c : Colour) : Bool := c.getLsbD 0

/-- A colour from its plane bits: `(planeA << 1) | planeB` (R64, R111). -/
def colourOf (a b : Bool) : Colour := BitVec.ofBool a ++ BitVec.ofBool b

/-- `A & 0x03` (R63, R156). -/
def maskedRate (rate : Byte) : BitVec 2 := rate.extractLsb' 0 2

/-- `A & 0x0F` (R63, R157). -/
def maskedLevel (level : Byte) : BitVec 4 := level.extractLsb' 0 4

/-- `Src(x, y)`: the sample in column x of row y; Off where the image has none (R117, log 8). -/
def sample (img : Image) (x y : Int) : Colour := (img.getD y.toNat []).getD x.toNat Colour.off

end Sys2Proof.Machine
end

