-- ==== Sys2Proof/Machine/Ops.lean ====
section
/-! DEFINITION. The named operations every meaning is made of: bit accesses to FB (spec/20_memory.md R44), the
bus write and the flush (spec/10_state.md R27, spec/43_controller.md R154), completing a command, and raising an
outcome (spec/60_exceptions.md R170 to R176). -/

namespace Sys2Proof.Machine

open Sys2Proof

/-! ### Named updates of the state -/

/-- Replace the frame buffer. -/
def State.withFb (s : State) (m : Memory) : State := { s with fb := m }

/-- Store BLINK (R24). -/
def State.withBlink (s : State) (r : BitVec 2) : State := { s with blink := r }

/-- Store BRIGHT (R25). -/
def State.withBright (s : State) (l : BitVec 4) : State := { s with bright := l }

/-- Write the whole of RESP (R26). -/
def State.withResp (s : State) (r : Word) : State := { s with resp := r }

/-- One free choice of R139 taken. -/
def State.withDraw (s : State) : State := { s with draws := s.draws + 1 }

/-! ### The frame buffer by bits (R44, R150, R151) -/

/-- `ReadBit(i, m)`: any masked bit set (R11, R150). -/
def readBit (fb : Memory) (i : Nat) (mask : Byte) : Bool := fbRead fb i &&& mask != 0x00#8

/-- `WriteBit(i, m, v)`: the masked bits set or cleared; no flush (R11, R151). -/
def writeBit (fb : Memory) (i : Nat) (mask : Byte) (v : Bool) : Memory :=
  fbWrite fb i (if v then fbRead fb i ||| mask else fbRead fb i &&& ~~~mask)

/-! ### The ends of a command -/

/-- The command is completed and returns nothing; also the absent result (R67, R170, R171). -/
def State.complete (s : State) : State := s.withResp respNothing

/-- The command is completed with a present result (R67). -/
def State.present (s : State) (p1 p0 : Byte) : State := s.withResp (respPresent p1 p0)

/-- Raising an outcome: RESP records it; nothing is saved, no mode changes, and every change made before the
raise stays (R11, R170, R176). There is no return from it: "the next command is accepted as after any other
command" (R176). -/
def State.raise (s : State) (r : Raised) : State := s.withResp (respRaised r)

/-! ### The bus -/

/-- The four bus writes CMSE makes (R27, R70 to R73). -/
inductive BusMsg where
  | oscOn
  | blink (rate : BitVec 2)
  | bright (level : BitVec 4)
  | frame (data : FrameData)
  deriving DecidableEq, Repr

/-- The bytes of a bus write (R70 to R73). -/
def busMsgBytes : BusMsg → List Byte
  | .oscOn => [oscOnByte]
  | .blink rate => [blinkByte rate]
  | .bright level => [brightByte level]
  | .frame data => frameBytes data

/-- The next answer of the sink (R27, log 7). -/
def sinkAnswer (k : Sink) : BusAnswer := k.script.headD k.rest

/-- The sink after one answer (R27, log 7). -/
def sinkAfter (k : Sink) : Sink := { k with script := k.script.tail }

/-- The device shadow after a bus write: a frame answered ok loads it (R28); any failed bus write leaves it
unknown (R28, R195, R205, log 9); another write answered ok leaves it as it was. -/
def devAfter (msg : BusMsg) (a : BusAnswer) (d : Dev) : Dev :=
  match a, msg with
  | .ok, .frame data => .holds data
  | .ok, _ => d
  | .err _, _ => .unknown

/-- `BusWrite(BUSADDR, bytes)`, the state after: the trace gains (address, bytes, answer), the sink has answered,
the shadow follows (R11, R27, R28). -/
def State.afterBusWrite (s : State) (msg : BusMsg) : State :=
  { s with
    bus := s.bus ++ [{ addr := s.busAddr, bytes := busMsgBytes msg, answer := sinkAnswer s.sink }]
    sink := sinkAfter s.sink
    dev := devAfter msg (sinkAnswer s.sink) s.dev }

/-- A bus write inside a command: answered ok the command goes on; answered `err(e)` it ends there with
TransportError (R173). -/
def State.send (s : State) (msg : BusMsg) (goOn : State → State) : State :=
  match sinkAnswer s.sink with
  | .ok => goOn (s.afterBusWrite msg)
  | .err e => (s.afterBusWrite msg).raise (.transportError e)

/-- The frame that a flush sends: FB as it stands (R73, R154). -/
def State.frameMsg (s : State) : BusMsg := .frame (fbData s.fb)

/-- `Flush()` inside a command (R154, R173). -/
def State.flushThen (s : State) (goOn : State → State) : State := s.send s.frameMsg goOn

/-- Send one bus write and complete (R154, R156, R157). -/
def State.sendAndComplete (s : State) (msg : BusMsg) : State := s.send msg State.complete

/-- `Flush()`, and complete (R112, R114, R116, R151, R154). -/
def State.flushAndComplete (s : State) : State := s.flushThen State.complete

end Sys2Proof.Machine
end

