-- ==== Sys2Proof/Machine/Mapper.lean ====
section
/-! DEFINITION. The coordinate mapper and the MAP command (spec/40_mapper.md). -/

namespace Sys2Proof.Machine

open Sys2Proof

/-- The mapper's result: `(byte_index, bit_mask)` (spec/30_encoding.md R75). -/
structure BitLoc where
  pos  : Nat
  mask : Byte
  deriving DecidableEq, Repr

/-- The base rule: `byte_index = 2*row + col/8 + 1`, `bit_mask = 1 << (col % 8)` (R91). -/
def baseRule (col row : Int) : BitLoc where
  pos := (2 * row + col / 8 + 1).toNat
  mask := 1#8 <<< (col % 8).toNat

/-- The domain of a pixel address: `0 <= x < columns`, `0 <= y < rows` (R6, R92). -/
def inDomain (t : Topology) (x y : Int) : Bool :=
  decide (0 ≤ x) && decide (x < (columns t : Int)) && decide (0 ≤ y) && decide (y < (rows t : Int))

/-- The chained rule: fold x >= 8 into y + 8, then the base rule with the axes swapped (R94). -/
def chainedRule (x y : Int) : BitLoc :=
  if 8 ≤ x then baseRule (y + 8) (x - 8) else baseRule y x

/-- The topology's reinterpretation of (x, y) as (col, row) and the base rule (R93 to R96). -/
def topologyRule (t : Topology) (x y : Int) (p : Plane) : BitLoc :=
  match t with
  | .m8x8 => baseRule ((x - 1) % 8) y
  | .m16x8c => chainedRule x y
  | .m16x8d => chainedRule x y
  | .m8x8x2 =>
    match p with
    | .a => baseRule y x
    | .b => baseRule (y + 8) x

/-- `Map(t, x, y, p)`: absent outside the domain (R90, R92). -/
def mapPixel (t : Topology) (x y : Int) (p : Plane) : Option BitLoc :=
  if inDomain t x y then some (topologyRule t x y p) else none

/-- MAP (R97). -/
def execMap (x y : Int) (p : Plane) (s : State) : Host.Outcome State Fault Refusal :=
  .next <|
    if planeLegal s.topo p then
      match mapPixel s.topo x y p with
      | none => s.complete
      | some l => s.present (BitVec.ofNat 8 l.pos) l.mask
    else s.raise .illegalCommand

end Sys2Proof.Machine
end

