-- ==== Sys2Proof/Machine/Pixel.lean ====
section
/-! DEFINITION. The pixel helpers and the pixel commands GETP, SETP, FILL, LOADIMG (spec/41_pixel_ops.md). -/

namespace Sys2Proof.Machine

open Sys2Proof

/-- `PixelRead(x, y)` (R111): both planes on M8X8X2, one bit otherwise; absent outside the domain. -/
def pixelRead (t : Topology) (fb : Memory) (x y : Int) : Option Colour :=
  if t = .m8x8x2 then
    match mapPixel t x y .a, mapPixel t x y .b with
    | some la, some lb => some (colourOf (readBit fb la.pos la.mask) (readBit fb lb.pos lb.mask))
    | _, _ => none
  else
    match mapPixel t x y .a with
    | some l => some (colourOf false (readBit fb l.pos l.mask))
    | none => none

/-- `PixelWrite(x, y, c)` (R111): plane A before plane B on M8X8X2, one bit otherwise; `none` says that the pixel
is not in the domain and nothing is written. -/
def pixelWrite (t : Topology) (fb : Memory) (x y : Int) (c : Colour) : Option Memory :=
  if t = .m8x8x2 then
    match mapPixel t x y .a, mapPixel t x y .b with
    | some la, some lb =>
      some (writeBit (writeBit fb la.pos la.mask (planeABit c)) lb.pos lb.mask (planeBBit c))
    | _, _ => none
  else
    match mapPixel t x y .a with
    | some l => some (writeBit fb l.pos l.mask (planeBBit c))
    | none => none

/-- The in-domain pixels, y outer and x inner (R117). -/
def pixels (t : Topology) : List (Int × Int) :=
  (List.range (rows t)).flatMap fun (y : Nat) => (List.range (columns t)).map fun (x : Nat) => ((x : Int), (y : Int))

/-- `PixelWrite` of `g` over a list of pixels, no flush. -/
def writePixels (t : Topology) (g : Int → Int → Colour) : List (Int × Int) → Memory → Memory
  | [], fb => fb
  | q :: qs, fb => writePixels t g qs ((pixelWrite t fb q.1 q.2 (g q.1 q.2)).getD fb)

/-- `WriteGrid(g)` (spec/42_shift.md R131), and the double loop of LOADIMG (R116). -/
def writeGrid (t : Topology) (g : Int → Int → Colour) (fb : Memory) : Memory :=
  writePixels t g (pixels t) fb

/-- The byte of a bit that is filled: 0xFF or 0x00 (R114). -/
def fillByte (v : Bool) : Byte := if v then 0xFF#8 else 0x00#8

/-- All sixteen data bytes to one value (R114, spec/43_controller.md R152). -/
def fillAll (b : Byte) (fb : Memory) : Memory :=
  (List.range 16).foldl (fun m k => fbWrite m (k + 1) b) fb

/-- The plane A bytes, `FB[2*r + 1]`, to one value and the plane B bytes, `FB[2*r + 2]`, to another (R114). -/
def fillPlanes (a b : Byte) (fb : Memory) : Memory :=
  (List.range 8).foldl (fun m r => fbWrite (fbWrite m (2 * r + 1) a) (2 * r + 2) b) fb

/-- The buffer that FILL leaves (R114). -/
def fillMemory (t : Topology) (c : Colour) (fb : Memory) : Memory :=
  if t = .m8x8x2 then fillPlanes (fillByte (planeABit c)) (fillByte (planeBBit c)) fb
  else fillAll (fillByte (planeBBit c)) fb

/-- GETP (R110). -/
def execGetp (x y : Int) (s : State) : Host.Outcome State Fault Refusal :=
  .next <|
    match pixelRead s.topo s.fb x y with
    | none => s.complete
    | some c => s.present 0x00#8 (c.setWidth 8)

/-- An in-domain SETP on M8X8X2 with BICOLOR_SETP_FRAMES = 2: a frame after each plane; a first flush answered
`err(e)` ends the command before plane B is written (R113). -/
def setpTwoFrames (la lb : BitLoc) (c : Colour) (s : State) : State :=
  (s.withFb (writeBit s.fb la.pos la.mask (planeABit c))).flushThen fun s1 =>
    (s1.withFb (writeBit s1.fb lb.pos lb.mask (planeBBit c))).flushAndComplete

/-- SETP with one frame (R112). -/
def setpOneFrame (x y : Int) (c : Colour) (s : State) : State :=
  match pixelWrite s.topo s.fb x y c with
  | some m => (s.withFb m).flushAndComplete
  | none => s.complete

/-- SETP (R112, R113). -/
def execSetp (x y : Int) (c : Colour) (s : State) : Host.Outcome State Fault Refusal :=
  .next <|
    if colourLegal s.topo c then
      if s.topo = .m8x8x2 ∧ s.setpFrames = .two then
        match mapPixel s.topo x y .a, mapPixel s.topo x y .b with
        | some la, some lb => setpTwoFrames la lb c s
        | _, _ => s.complete
      else setpOneFrame x y c s
    else s.raise .illegalCommand

/-- FILL (R114). -/
def execFill (c : Colour) (s : State) : Host.Outcome State Fault Refusal :=
  .next <|
    if colourLegal s.topo c then (s.withFb (fillMemory s.topo c s.fb)).flushAndComplete
    else s.raise .illegalCommand

/-- LOADIMG (R116, R117): the dimension check comes before any change of FB. -/
def execLoadimg (w h : Nat) (s : State) : Host.Outcome State Fault Refusal :=
  .next <|
    if sizeMatches s.topo w h then (s.withFb (writeGrid s.topo (sample s.src) s.fb)).flushAndComplete
    else s.raise .dimensionMismatch

end Sys2Proof.Machine
end

