-- ==== Sys2Proof/Machine/Buffer.lean ====
section
/-! DEFINITION. The buffer commands RDBIT, WRBIT, FILLRAW, FLUSH (spec/43_controller.md sections 1 and 2). -/

namespace Sys2Proof.Machine

open Sys2Proof

/-- RDBIT (R150). -/
def execRdbit (i : Nat) (m : Byte) (s : State) : Host.Outcome State Fault Refusal :=
  .next <|
    if positionLegal i then s.present 0x00#8 (if readBit s.fb i m then 1#8 else 0#8)
    else s.raise .illegalCommand

/-- WRBIT (R151). -/
def execWrbit (i : Nat) (m : Byte) (v : Bool) (s : State) : Host.Outcome State Fault Refusal :=
  .next <|
    if positionLegal i then (s.withFb (writeBit s.fb i m v)).flushAndComplete
    else s.raise .illegalCommand

/-- FILLRAW (R152): no flush. -/
def execFillraw (b : Byte) (s : State) : Host.Outcome State Fault Refusal :=
  .next <|
    if rawByteLegal b then (s.withFb (fillAll b s.fb)).complete
    else s.raise .illegalCommand

/-- FLUSH (R154). -/
def execFlush (s : State) : Host.Outcome State Fault Refusal :=
  .next s.flushAndComplete

end Sys2Proof.Machine
end

