-- ==== Sys2Proof/Machine/BusSide.lean ====
section
/-! DEFINITION. The four bus-side rows of spec/opcode_table.json (spec/30_encoding.md R70 to R73). CMSE emits them and
the host gives them no command word. As instructions they are the bus write itself, on its own: the step that INIT,
BLINK, BRIGHT and every flush take at their bus write (log 1). No command ends, so RESP is not written. -/

namespace Sys2Proof.Machine

open Sys2Proof

/-- OSC_ON (R70). -/
def execOscOn (s : State) : Host.Outcome State Fault Refusal :=
  .next (s.afterBusWrite .oscOn)

/-- BLINK_CMD (R71). -/
def execBlinkCmd (rate : BitVec 2) (s : State) : Host.Outcome State Fault Refusal :=
  .next (s.afterBusWrite (.blink rate))

/-- BRIGHT_CMD (R72). -/
def execBrightCmd (level : BitVec 4) (s : State) : Host.Outcome State Fault Refusal :=
  .next (s.afterBusWrite (.bright level))

/-- FRAME (R73). -/
def execFrame (data : FrameData) (s : State) : Host.Outcome State Fault Refusal :=
  .next (s.afterBusWrite (.frame data))

end Sys2Proof.Machine
end

