-- ==== Sys2Proof/Machine/Controller.lean ====
section
/-! DEFINITION. The controller commands INIT, BLINK, BRIGHT (spec/43_controller.md section 3). -/

namespace Sys2Proof.Machine

open Sys2Proof

/-- INIT (R155): each field is stored before its own byte is sent. -/
def execInit (s : State) : Host.Outcome State Fault Refusal :=
  .next <|
    s.send .oscOn fun s1 =>
      (s1.withBlink 0#2).send (.blink 0#2) fun s2 =>
        (s2.withBright 15#4).sendAndComplete (.bright 15#4)

/-- BLINK (R156): stored, then sent. -/
def execBlink (rate : Byte) (s : State) : Host.Outcome State Fault Refusal :=
  .next ((s.withBlink (maskedRate rate)).sendAndComplete (.blink (maskedRate rate)))

/-- BRIGHT (R157): stored, then sent. -/
def execBright (level : Byte) (s : State) : Host.Outcome State Fault Refusal :=
  .next ((s.withBright (maskedLevel level)).sendAndComplete (.bright (maskedLevel level)))

end Sys2Proof.Machine
end

