-- ==== Sys2Proof/Machine/Shift.lean ====
section
/-! DEFINITION. The shift engine and the SHIFT command (spec/42_shift.md). -/

namespace Sys2Proof.Machine

open Sys2Proof

/-- The four directions of a unit shift (R132 to R135). -/
inductive Direction where
  | right
  | left
  | down
  | up
  deriving DecidableEq, Repr

/-- `Grid()`: the colours the buffer holds (R131); used on in-domain pixels only. -/
def gridOf (t : Topology) (fb : Memory) (x y : Int) : Colour :=
  (pixelRead t fb x y).getD Colour.off

/-- The new grid of a unit shift, from the old one (R132 to R135). -/
def shiftedGrid (t : Topology) (d : Direction) (wrap : Bool) (old : Int → Int → Colour) (x y : Int) : Colour :=
  let C : Int := columns t
  let R : Int := rows t
  match d with
  | .right => if 1 ≤ x then old (x - 1) y else if wrap then old (C - 1) y else Colour.off
  | .left => if x ≤ C - 2 then old (x + 1) y else if wrap then old 0 y else Colour.off
  | .down => if 1 ≤ y then old x (y - 1) else if wrap then old x (R - 1) else Colour.off
  | .up => if y ≤ R - 2 then old x (y + 1) else if wrap then old x 0 else Colour.off

/-- `UnitShift(d, wrap)`: the grid is taken once, before any pixel is written (R131). -/
def unitShift (t : Topology) (wrap : Bool) (fb : Memory) (d : Direction) : Memory :=
  writeGrid t (shiftedGrid t d wrap (gridOf t fb)) fb

/-- `hdir` (R130). -/
def horizontalDir (dx : Int) : Direction := if 0 < dx then .right else .left

/-- `vdir` (R130). -/
def verticalDir (dy : Int) : Direction := if 0 < dy then .down else .up

/-- The unit shifts of a SHIFT, in order: `abs(dx)` horizontal ones, then `abs(dy)` vertical ones (R130, R136). -/
def unitShifts (dx dy : Int) : List Direction :=
  List.replicate dx.natAbs (horizontalDir dx) ++ List.replicate dy.natAbs (verticalDir dy)

/-- Whether the frame after a unit shift is omitted: never with `exact`, never after the last unit shift, and
otherwise the implementation's free choice (R138, R139, log 10). -/
def omitsFrameNow (s : State) (last : Bool) : Bool :=
  decide (s.coalescing = .coalesced) && !last && Config.omitsFrame s.draws

/-- With `coalesced`, a free choice is taken after every unit shift but the last (log 10). -/
def afterChoice (s : State) (last : Bool) : State :=
  if s.coalescing = .coalesced ∧ last = false then s.withDraw else s

/-- The sequence of unit shifts, each followed by its flush; a flush answered `err(e)` ends the command
(R130, R138 to R140). -/
def runUnitShifts (wrap : Bool) : List Direction → State → State
  | [], s => s.complete
  | d :: ds, s =>
    let moved := s.withFb (unitShift s.topo wrap s.fb d)
    let chosen := afterChoice moved ds.isEmpty
    if omitsFrameNow moved ds.isEmpty then runUnitShifts wrap ds chosen
    else chosen.flushThen fun s1 => runUnitShifts wrap ds s1

/-- SHIFT (R130). -/
def execShift (dx dy : Int) (wrap : Bool) (s : State) : Host.Outcome State Fault Refusal :=
  .next (runUnitShifts wrap (unitShifts dx dy) s)

end Sys2Proof.Machine
end

