-- ==== Sys2Proof/Machine/Dispatch.lean ====
section
/-! DEFINITION. exec: one arm per row of spec/opcode_table.json, each one direct call of its meaning. -/

namespace Sys2Proof.Machine

open Sys2Proof

def exec (i : Instr) (s : State) : Host.Outcome State Fault Refusal :=
  match i with
  -- the host commands (spec/30_encoding.md R62)
  | .map x y p => Sys2Proof.Machine.execMap x y p s
  | .getp x y => Sys2Proof.Machine.execGetp x y s
  | .setp x y c => Sys2Proof.Machine.execSetp x y c s
  | .fill c => Sys2Proof.Machine.execFill c s
  | .loadimg w h => Sys2Proof.Machine.execLoadimg w h s
  | .shift dx dy wrap => Sys2Proof.Machine.execShift dx dy wrap s
  | .rdbit b m => Sys2Proof.Machine.execRdbit b m s
  | .wrbit b m v => Sys2Proof.Machine.execWrbit b m v s
  | .fillraw b => Sys2Proof.Machine.execFillraw b s
  | .flush => Sys2Proof.Machine.execFlush s
  | .init => Sys2Proof.Machine.execInit s
  | .blink rate => Sys2Proof.Machine.execBlink rate s
  | .bright level => Sys2Proof.Machine.execBright level s
  -- the bus-side rows (spec/30_encoding.md R70 to R73)
  | .oscOn => Sys2Proof.Machine.execOscOn s
  | .blinkCmd rate => Sys2Proof.Machine.execBlinkCmd rate s
  | .brightCmd level => Sys2Proof.Machine.execBrightCmd level s
  | .frame data => Sys2Proof.Machine.execFrame data s

end Sys2Proof.Machine
end

