-- ==== Sys2Proof/Machine/Port.lean ====
section
/-! DEFINITION. The host port: accepting what is presented (spec/10_state.md R20, R21) and refusing a command word
that is no command (spec/30_encoding.md R68). -/

namespace Sys2Proof.Machine

open Sys2Proof

/-- Accept a command word: it is the current command word for the duration of the command (R20), the host answers
its samples from `src` (R117), and `later` stays presented. -/
def State.accept (s : State) (w : Word) (src : Image) (later : List Request) : State :=
  { s with cmd := w, src := src, port := later }

/-- Accept a bus-side write: no command word is held, and the image source is not touched. -/
def State.acceptBusSide (s : State) (later : List Request) : State := { s with port := later }

/-- A code presented at the port, ahead of what waits there. -/
def State.presented (s : State) (c : Code) : State := { s with port := { code := c, src := s.src } :: s.port }

/-- The current word is no command: refused with IllegalCommand, which is an outcome like any other (R68, R174). -/
def rejectWord (_ : DecodeError) (s : State) : Host.Outcome State Fault Refusal :=
  .next (s.raise .illegalCommand)

/-- Bus-side bytes that are none of the four shapes: nothing emits them (R27, R74; log 14). -/
def rejectBusSide (_ : DecodeError) (_ : State) : Host.Outcome State Fault Refusal :=
  .fault .notABusWrite

end Sys2Proof.Machine
end

