-- ==== Sys2Proof/Machine/Step.lean ====
section
/-! DEFINITION. One step: the oldest request at the host port is accepted and runs to completion (spec/10_state.md
R21); with nothing presented the block waits (spec/70_reset_and_hazards.md R190). -/

namespace Sys2Proof.Machine

open Sys2Proof

/-- Run the current command word (R20, R21). -/
def runWord (s : State) : Host.Outcome State Fault Refusal :=
  match decodeWord s.cmd with
  | .ok i => exec i s
  | .error e => rejectWord e s

/-- Run a bus-side write (log 1). -/
def runBusSide (bs : List Byte) (s : State) : Host.Outcome State Fault Refusal :=
  match decodeBus bs with
  | .ok i => exec i s
  | .error e => rejectBusSide e s

/-- One step. -/
def step (s : State) : Host.Outcome State Fault Refusal :=
  match s.port with
  | [] => .next s
  | r :: later =>
    match r.code with
    | .word w => runWord (s.accept w r.src later)
    | .bytes bs => runBusSide bs (s.acceptBusSide later)

/-- `s` with the instruction of a table row presented at the host port, so that the next step runs exactly it. -/
def State.withFetchWord (s : State) (nbits w : Nat) : State := s.presented (codeOf nbits w)

end Sys2Proof.Machine
end

