-- ==== Sys2Proof/Safety.lean ====
section
/-! DEFINITION. The words the statements use: the invariant of the machine, what counts as a safe run, and the
spec's own values written out apart from the meanings (response words of spec/30_encoding.md R67, the frame of R73,
the opcode map of R62, the grid after a number of unit shifts of spec/42_shift.md R130). -/

namespace Sys2Proof.Machine

open Sys2Proof

/-! ### Values the spec writes out -/

/-- `0x0001PPPP`: OK with a present payload of P1 and P0 (R67). -/
def presentWord (p1 p0 : Nat) : Word := BitVec.ofNat 32 (0x10000 + 256 * p1 + p0)

/-- RESP after the last bus write of a command: 0x00000000, or 0x30000000 with the sink's code (R67). -/
def answerWord : BusAnswer → Word
  | .ok => 0x00000000#32
  | .err e => BitVec.ofNat 32 (0x30000000 + e.toNat)

/-- The seventeen bytes `FB[0], FB[1], ..., FB[16]` of a flush (R73, R154). -/
def frameOf (fb : Memory) : List Byte := (List.range 17).map (fbRead fb)

/-- The (match, mask) pairs of the thirteen commands (R62). -/
def commandRows : List (Word × Word) :=
  [(0x10000000#32, 0xFFFE0000#32), (0x20000000#32, 0xFFFF0000#32), (0x30000000#32, 0xFFFC0000#32),
   (0x40000000#32, 0xFFFCFFFF#32), (0x50000000#32, 0xFFFF0000#32), (0x60000000#32, 0xFFFB0000#32),
   (0x80000000#32, 0xFFFF0000#32), (0x90000000#32, 0xFFFE0000#32), (0xA0000000#32, 0xFFFFFF00#32),
   (0xB0000000#32, 0xFFFFFFFF#32), (0xC0000000#32, 0xFFFFFFFF#32), (0xD0000000#32, 0xFFFFFF00#32),
   (0xE0000000#32, 0xFFFFFF00#32)]

/-- One of the thirteen host commands, not a bus-side row (R62). -/
def isCommand : Instr → Bool
  | .oscOn => false
  | .blinkCmd _ => false
  | .brightCmd _ => false
  | .frame _ => false
  | _ => true

/-! ### One bus write of a command -/

/-- `t` is `s` after a command's only frame: the trace, the sink and RESP by the sink's answer, and DEV equal to FB
if that answer is ok (R51, R154); of DEV after a failed frame it says nothing. All else is as in `s`. -/
def SentFrame (s t : State) : Prop :=
  ∃ d : Dev,
    t = { s with
          bus := s.bus ++ [{ addr := s.busAddr, bytes := frameOf s.fb, answer := sinkAnswer s.sink }]
          sink := sinkAfter s.sink
          resp := answerWord (sinkAnswer s.sink)
          dev := d } ∧
    (sinkAnswer s.sink = .ok → d = .holds (fbData s.fb))

/-- `t` is `s` after a command's only bus write, of one byte: DEV as it was if the answer is ok. -/
def SentByte (b : Byte) (s t : State) : Prop :=
  ∃ d : Dev,
    t = { s with
          bus := s.bus ++ [{ addr := s.busAddr, bytes := [b], answer := sinkAnswer s.sink }]
          sink := sinkAfter s.sink
          resp := answerWord (sinkAnswer s.sink)
          dev := d } ∧
    (sinkAnswer s.sink = .ok → d = s.dev)

/-- The sink answers ok to every bus write to come. -/
abbrev AllOk (k : Sink) : Prop := (∀ a ∈ k.script, a = .ok) ∧ k.rest = .ok

/-! ### The grid after a number of unit shifts -/

/-- The buffer after the first `k` unit shifts of SHIFT dx, dy, wrap: horizontal ones first (R130, R136). -/
def fbAfterUnits (t : Topology) (wrap : Bool) (dx dy : Int) (fb : Memory) (k : Nat) : Memory :=
  (fun m => unitShift t wrap m (if 0 < dy then .down else .up))^[k - dx.natAbs]
    ((fun m => unitShift t wrap m (if 0 < dx then .right else .left))^[min k dx.natAbs] fb)

/-! ### The invariant -/

/-- The four shapes of bus write (R27, R70 to R73). -/
def FourShapes (bs : List Byte) : Prop :=
  bs = [0x21#8] ∨ (∃ r : BitVec 2, bs = [0x81#8 ||| (r.setWidth 8 <<< 1)]) ∨
    (∃ l : BitVec 4, bs = [0xE0#8 ||| l.setWidth 8]) ∨ (∃ data : FrameData, bs = 0x00#8 :: data.toList)

/-- The words RESP can hold (R67). -/
def LawfulResp (r : Word) : Prop :=
  r = 0x00000000#32 ∨ (∃ p1 p0 : Nat, p1 < 256 ∧ p0 < 256 ∧ r = presentWord p1 p0) ∨ r = 0x10000000#32 ∨
    r = 0x20000000#32 ∨ (∃ e : BitVec 16, r = BitVec.ofNat 32 (0x30000000 + e.toNat))

/-- What a trace says of the chip's display RAM, entry by entry: a 17-byte write answered ok loads it, a failed
write leaves nothing known (R28, R195, R205; log 9). -/
def devOfTrace (bus : List BusEntry) : Dev :=
  bus.foldl (fun d e =>
    match e.answer with
    | .err _ => .unknown
    | .ok => if h : (e.bytes.drop 1).length = 16 then .holds ⟨(e.bytes.drop 1).toArray, by simpa using h⟩ else d)
    .unknown

/-- The invariant of the machine (R33, R27, R28, R67): the frame buffer in canonical form, RESP lawful, every trace
entry addressed to BUSADDR and of one of the four shapes, DEV what the trace says. -/
def Inv (s : State) : Prop :=
  Memory.wf s.fb = true ∧ LawfulResp s.resp ∧ (∀ e ∈ s.bus, e.addr = s.busAddr ∧ FourShapes e.bytes) ∧
    s.dev = devOfTrace s.bus

/-! ### Safe runs -/

/-- Only command words wait at the host port. -/
def OnlyWordsWait (s : State) : Prop := ∀ r ∈ s.port, ∃ w, r.code = .word w

/-- A run of `n` steps from `s` that no fault and no refusal ends. -/
def RunsOn (n : Nat) (s : State) : Prop := ∃ t, Host.Core.run Sys2Proof.core n s = .next t

end Sys2Proof.Machine
end

