-- ==== Sys2Proof/Certificates/Slice0/Obligations.lean ====
section
/-! DEFINITION. The statements for the provers, each from numbered rules of spec/. -/

open Sys2Proof Sys2Proof.Machine

/-! ### Encodings -/

/-- R60 to R63, R70 to R73 (decisions D4, D6 of the spec): no bit of an operand is lost on the way to the code and back.
Operands are integers that fit their fields (log 11). -/
def Obligations.EncodedInstructionDecodesToItself : Prop :=
  ∀ i : Instr, i.wf = true → decode (encode i) = .ok i

/-- R60, R62: each code has one meaning, and no bit of it is dropped. -/
def Obligations.DecodedCodeIsItsEncoding : Prop :=
  ∀ (c : Code) (i : Instr), decode c = .ok i → encode i = c ∧ i.wf = true

/-- R62: a word is a command exactly if it meets the mask and match of one of the thirteen rows. -/
def Obligations.CommandWordsAreExactlyTheMaskedRows : Prop :=
  ∀ w : Word, (∃ i, decodeWord w = .ok i) ↔ ∃ row ∈ commandRows, w &&& row.2 = row.1

/-- Words written out from R60 to R63 and R70 to R73 (spec/95_test_vectors.md section 3.1). -/
def Obligations.WrittenOutWordsDecode : Prop :=
  decodeWord 0x100000FF#32 = .ok (.map (-1) 0 .a) ∧ decodeWord 0x10010503#32 = .ok (.map 3 5 .b) ∧
  decodeWord 0x2000070F#32 = .ok (.getp 15 7) ∧ decodeWord 0x30020000#32 = .ok (.setp 0 0 Colour.red) ∧
  decodeWord 0x50000810#32 = .ok (.loadimg 16 8) ∧ decodeWord 0x600402FF#32 = .ok (.shift (-1) 2 true) ∧
  decodeWord 0x90010201#32 = .ok (.wrbit 2 0x01#8 true) ∧ decodeWord 0xD0000002#32 = .ok (.blink 2#8) ∧
  decodeBus [0x85#8] = .ok (.blinkCmd 2#2) ∧ decodeBus [0xE7#8] = .ok (.brightCmd 7#4)

/-- R20, R21: a step accepts the oldest request and is exec of the instruction its code decodes to. Around exec it takes
the request from the port; a command word is held in `cmd` and its image source in `src` (logs 1, 2, 13). -/
def Obligations.StepRunsTheDecodedInstruction : Prop :=
  ∀ (s : State) (src : Image) (later : List Request) (i : Instr),
    (∀ w, s.port = { code := .word w, src := src } :: later → decode (.word w) = .ok i →
      step s = exec i { s with cmd := w, src := src, port := later }) ∧
    (∀ bs, s.port = { code := .bytes bs, src := src } :: later → decode (.bytes bs) = .ok i →
      step s = exec i { s with port := later })

/-- R68, R174 (decision D19): a word outside every row of R62 is refused with RESP = 0x10000000 and nothing else changes;
the request is taken from the port (log 2) and its word held in `cmd` (log 13). -/
def Obligations.IllegalWordOnlyWritesResp : Prop :=
  ∀ (s : State) (w : Word) (src : Image) (later : List Request),
    s.port = { code := .word w, src := src } :: later → (∀ row ∈ commandRows, w &&& row.2 ≠ row.1) →
    step s = .next { s with cmd := w, src := src, port := later, resp := 0x10000000#32 }

/-- R62's further conditions, R68, R174, R175 (decisions D17 to D20): each failed condition is refused with RESP = 0x10000000,
no other state change and no bus write. -/
def Obligations.FailedFurtherConditionOnlyWritesResp : Prop :=
  ∀ s : State,
    (∀ x y : Int, s.topo ≠ .m8x8x2 → exec (.map x y .b) s = .next { s with resp := 0x10000000#32 }) ∧
    (∀ (x y : Int) (c : Colour), s.topo ≠ .m8x8x2 → 2 ≤ c.toNat →
      exec (.setp x y c) s = .next { s with resp := 0x10000000#32 }) ∧
    (∀ c : Colour, s.topo ≠ .m8x8x2 → 2 ≤ c.toNat → exec (.fill c) s = .next { s with resp := 0x10000000#32 }) ∧
    (∀ (i : Nat) (m : Byte), i = 0 ∨ 17 ≤ i → exec (.rdbit i m) s = .next { s with resp := 0x10000000#32 }) ∧
    (∀ (i : Nat) (m : Byte) (v : Bool), i = 0 ∨ 17 ≤ i →
      exec (.wrbit i m v) s = .next { s with resp := 0x10000000#32 }) ∧
    (∀ b : Byte, b ≠ 0x00#8 → b ≠ 0xFF#8 → exec (.fillraw b) s = .next { s with resp := 0x10000000#32 })

/-! ### The mapper -/

/-- R92: absent exactly outside 8 by 8 (M8X8, M8X8X2) or 16 by 8 (M16X8C, M16X8D), on the logical (x, y). -/
def Obligations.MapperIsAbsentExactlyOutsideTheDomain : Prop :=
  ∀ (t : Topology) (x y : Int) (p : Plane),
    mapPixel t x y p = none ↔
      x < 0 ∨ (if t = .m16x8c ∨ t = .m16x8d then (16 : Int) else 8) ≤ x ∨ y < 0 ∨ 8 ≤ y

/-- R93: M8X8 rotates the column by one: `x' = (x - 1) mod 8`, then the base rule on (x', y). -/
def Obligations.M8x8MappingRotatesTheColumn : Prop :=
  ∀ (x y : Nat) (p : Plane), x < 8 → y < 8 →
    mapPixel .m8x8 x y p = some { pos := 2 * y + 1, mask := 1#8 <<< ((x + 7) % 8) } ∧
    mapPixel .m8x8 x y p = some (baseRule (if x = 0 then 7 else (x : Int) - 1) y)

/-- R94: the chained topology: odd positions for the left half, even ones for the right, bit y in both; it is the base rule with
the axes swapped after the fold of x >= 8 into y + 8. -/
def Obligations.ChainedMappingSwapsAxesAndFolds : Prop :=
  ∀ (x y : Nat) (p : Plane), x < 16 → y < 8 →
    (x ≤ 7 → mapPixel .m16x8c x y p = some { pos := 2 * x + 1, mask := 1#8 <<< y }) ∧
    (8 ≤ x → mapPixel .m16x8c x y p = some { pos := 2 * (x - 8) + 2, mask := 1#8 <<< y }) ∧
    mapPixel .m16x8c x y p =
      some (baseRule (if 8 ≤ x then (y : Int) + 8 else y) (if 8 ≤ x then (x : Int) - 8 else x))

/-- R95 (decision D10) and R96 (decision D33): the dual topology maps as the chained one for every x, y; the bi-colour one
puts plane A at the odd and plane B at the even positions. -/
def Obligations.DualAndBicolourMappings : Prop :=
  (∀ (x y : Int) (p : Plane), mapPixel .m16x8d x y p = mapPixel .m16x8c x y p) ∧
  (∀ x y : Nat, x < 8 → y < 8 →
    mapPixel .m8x8x2 x y .a = some { pos := 2 * x + 1, mask := 1#8 <<< y } ∧
    mapPixel .m8x8x2 x y .b = some { pos := 2 * x + 2, mask := 1#8 <<< y })

/-- R98: the mapper stays in positions 1 to 16 with a one-hot mask, and on M8X8 in odd positions. -/
def Obligations.MapperStaysInTheDataBytes : Prop :=
  ∀ (t : Topology) (x y : Int) (p : Plane) (l : BitLoc), mapPixel t x y p = some l →
    1 ≤ l.pos ∧ l.pos ≤ 16 ∧ (∃ b, b < 8 ∧ l.mask = 1#8 <<< b) ∧ (t = .m8x8 → l.pos % 2 = 1)

/-- R99: two (pixel, plane) pairs with one location are one pair; the plane counts on M8X8X2 only. -/
def Obligations.MapperIsInjective : Prop :=
  ∀ (t : Topology) (x y x' y' : Int) (p p' : Plane) (l : BitLoc),
    mapPixel t x y p = some l → mapPixel t x' y' p' = some l →
    x = x' ∧ y = y' ∧ (t = .m8x8x2 → p = p')

/-- R100: the pixel that owns a data bit, and that no pixel owns an even position on M8X8. -/
def Obligations.MapperInverseTable : Prop :=
  ∀ (x y : Int) (p : Plane) (r b : Nat), r < 8 → b < 8 →
    (mapPixel .m8x8 x y p = some { pos := 2 * r + 1, mask := 1#8 <<< b } ↔ x = (((b + 1) % 8 : Nat) : Int) ∧ y = r) ∧
    mapPixel .m8x8 x y p ≠ some { pos := 2 * r + 2, mask := 1#8 <<< b } ∧
    (∀ t, t = .m16x8c ∨ t = .m16x8d →
      (mapPixel t x y p = some { pos := 2 * r + 1, mask := 1#8 <<< b } ↔ x = r ∧ y = b) ∧
      (mapPixel t x y p = some { pos := 2 * r + 2, mask := 1#8 <<< b } ↔ x = r + 8 ∧ y = b)) ∧
    (mapPixel .m8x8x2 x y p = some { pos := 2 * r + 1, mask := 1#8 <<< b } ↔ p = .a ∧ x = r ∧ y = b) ∧
    (mapPixel .m8x8x2 x y p = some { pos := 2 * r + 2, mask := 1#8 <<< b } ↔ p = .b ∧ x = r ∧ y = b)

/-- R97 (decision D27): MAP reports the mapper's pair or the absent word, and changes RESP only. -/
def Obligations.MapCommandReportsTheLocation : Prop :=
  ∀ (s : State) (x y : Int) (p : Plane), (s.topo = .m8x8x2 ∨ p = .a) →
    (mapPixel s.topo x y p = none → exec (.map x y p) s = .next { s with resp := 0x00000000#32 }) ∧
    (∀ l, mapPixel s.topo x y p = some l →
      exec (.map x y p) s = .next { s with resp := presentWord l.pos l.mask.toNat })

/-! ### Pixel commands -/

/-- R110: GETP returns PixelRead's colour or the absent word; RESP is all that changes, no bus write. -/
def Obligations.GetpReturnsThePixelColour : Prop :=
  ∀ (s : State) (x y : Int),
    (pixelRead s.topo s.fb x y = none → exec (.getp x y) s = .next { s with resp := 0x00000000#32 }) ∧
    (∀ c, pixelRead s.topo s.fb x y = some c →
      exec (.getp x y) s = .next { s with resp := presentWord 0 c.toNat })

/-- R111 with R64 and R65 (decisions D7, D8): what a pixel reads as, by the bits of FB at the mapped locations. -/
def Obligations.PixelReadAssemblesTheMappedBits : Prop :=
  ∀ (t : Topology) (fb : Memory) (x y : Int),
    (pixelRead t fb x y = none ↔ mapPixel t x y .a = none) ∧
    (∀ l, t ≠ .m8x8x2 → mapPixel t x y .a = some l →
      pixelRead t fb x y = some (if fbRead fb l.pos &&& l.mask = 0x00#8 then 0#2 else 1#2)) ∧
    (∀ la lb, t = .m8x8x2 → mapPixel t x y .a = some la → mapPixel t x y .b = some lb →
      pixelRead t fb x y = some ((if fbRead fb la.pos &&& la.mask = 0x00#8 then 0#2 else 2#2) +
        (if fbRead fb lb.pos &&& lb.mask = 0x00#8 then 0#2 else 1#2)))

/-- R112: SETP with a legal colour writes the pixel and sends exactly one frame, or, out of the domain, changes RESP only; with
an illegal colour it is refused. On M8X8X2 this is BICOLOR_SETP_FRAMES = 1 (R112; for 2 see SetpSendsAFrameAfterEachPlane). -/
def Obligations.SetpWritesThePixelAndSendsOneFrame : Prop :=
  ∀ (s : State) (x y : Int) (c : Colour),
    (s.topo ≠ .m8x8x2 → c.getLsbD 1 = true → exec (.setp x y c) s = .next { s with resp := 0x10000000#32 }) ∧
    ((s.topo = .m8x8x2 ∨ c.getLsbD 1 = false) → (s.topo ≠ .m8x8x2 ∨ s.setpFrames = .one) →
      ∀ m, pixelWrite s.topo s.fb x y c = some m →
        ∃ t, exec (.setp x y c) s = .next t ∧ SentFrame { s with fb := m } t) ∧
    ((s.topo = .m8x8x2 ∨ c.getLsbD 1 = false) → pixelWrite s.topo s.fb x y c = none →
      exec (.setp x y c) s = .next { s with resp := 0x00000000#32 })

/-- R111 with R64 (decision D7): PixelWrite sets or clears exactly the pixel's bits, plane A from c[1] and plane B from c[0]; every
other bit of every byte reads as before; outside the domain there is no write. -/
def Obligations.PixelWriteStoresOnlyThePixelBits : Prop :=
  ∀ (t : Topology) (fb : Memory) (x y : Int) (c : Colour),
    (pixelWrite t fb x y c = none ↔ mapPixel t x y .a = none) ∧
    (∀ l m, t ≠ .m8x8x2 → mapPixel t x y .a = some l → pixelWrite t fb x y c = some m →
      ∀ k, fbRead m k = if k = l.pos then
          (if c.getLsbD 0 then fbRead fb k ||| l.mask else fbRead fb k &&& (0xFF#8 - l.mask)) else fbRead fb k) ∧
    (∀ la lb m, t = .m8x8x2 → mapPixel t x y .a = some la → mapPixel t x y .b = some lb →
      pixelWrite t fb x y c = some m →
      ∀ k, fbRead m k = if k = la.pos then
          (if c.getLsbD 1 then fbRead fb k ||| la.mask else fbRead fb k &&& (0xFF#8 - la.mask))
        else if k = lb.pos then
          (if c.getLsbD 0 then fbRead fb k ||| lb.mask else fbRead fb k &&& (0xFF#8 - lb.mask))
        else fbRead fb k)

/-- R113 (decision D11): with BICOLOR_SETP_FRAMES = 2 an in-range bi-colour SETP sends a frame after plane A and one after plane B;
a first frame answered `err(e)` ends the command before plane B is written. -/
def Obligations.SetpSendsAFrameAfterEachPlane : Prop :=
  ∀ (s : State) (x y : Int) (c : Colour) (la lb : BitLoc),
    s.topo = .m8x8x2 → s.setpFrames = .two → mapPixel .m8x8x2 x y .a = some la → mapPixel .m8x8x2 x y .b = some lb →
    (∀ e, sinkAnswer s.sink = .err e →
      ∃ t, exec (.setp x y c) s = .next t ∧ SentFrame { s with fb := writeBit s.fb la.pos la.mask (c.getLsbD 1) } t) ∧
    (sinkAnswer s.sink = .ok →
      ∃ t u, SentFrame { s with fb := writeBit s.fb la.pos la.mask (c.getLsbD 1) } t ∧
        exec (.setp x y c) s = .next u ∧ SentFrame { t with fb := writeBit t.fb lb.pos lb.mask (c.getLsbD 0) } u)

/-- R119(a): SETP then GETP returns the colour, whatever the sink answered; with two frames, if the SETP was completed. -/
def Obligations.SetpThenGetpReturnsTheColour : Prop :=
  ∀ (s : State) (x y : Int) (c : Colour), mapPixel s.topo x y .a ≠ none → (s.topo = .m8x8x2 ∨ c.getLsbD 1 = false) →
    ∃ t, exec (.setp x y c) s = .next t ∧
      (s.topo ≠ .m8x8x2 ∨ s.setpFrames = .one ∨ t.resp = 0x00000000#32 →
        exec (.getp x y) t = .next { t with resp := presentWord 0 c.toNat })

/-- R119(b): SETP leaves every other pixel's colour as it was, in every mode and for every answer of the sink. -/
def Obligations.SetpKeepsEveryOtherPixel : Prop :=
  ∀ (s : State) (x y x' y' : Int) (c : Colour), (x', y') ≠ (x, y) →
    ∃ t, exec (.setp x y c) s = .next t ∧ pixelRead t.topo t.fb x' y' = pixelRead s.topo s.fb x' y'

/-- R114: FILL overwrites all sixteen data bytes, plane A bytes by c[1] and plane B bytes by c[0] on M8X8X2 and all of them by c[0]
otherwise, sends exactly one frame, and leaves FB[0] 0x00; an illegal colour is refused. -/
def Obligations.FillStoresEveryDataByte : Prop :=
  ∀ (s : State) (c : Colour),
    decodeWord (BitVec.ofNat 32 (0x40000000 + 0x10000 * c.toNat)) = .ok (.fill c) ∧
    (s.topo ≠ .m8x8x2 → c.getLsbD 1 = true → exec (.fill c) s = .next { s with resp := 0x10000000#32 }) ∧
    ((s.topo = .m8x8x2 ∨ c.getLsbD 1 = false) →
      ∃ m t, exec (.fill c) s = .next t ∧ SentFrame { s with fb := m } t ∧ fbRead m 0 = 0x00#8 ∧
        ∀ k, 1 ≤ k → k ≤ 16 → fbRead m k =
          if (if s.topo = .m8x8x2 ∧ k % 2 = 1 then c.getLsbD 1 else c.getLsbD 0) then 0xFF#8 else 0x00#8)

/-- R115: after FILL every in-domain pixel reads as the colour filled. -/
def Obligations.FilledPixelsReadBack : Prop :=
  ∀ (s : State) (c : Colour) (x y : Int), (s.topo = .m8x8x2 ∨ c.getLsbD 1 = false) → mapPixel s.topo x y .a ≠ none →
    ∃ t, exec (.fill c) s = .next t ∧ exec (.getp x y) t = .next { t with resp := presentWord 0 c.toNat }

/-- R116, R117 (decision D23), R111: LOADIMG with the matrix's size stores every pixel's sample, leaves the even positions of
M8X8 as they were, and sends exactly one frame. On a monochrome topology bit 1 of a sample is not sampled. -/
def Obligations.LoadimgStoresEverySample : Prop :=
  ∀ (s : State) (w h : Nat), w = (if s.topo = .m16x8c ∨ s.topo = .m16x8d then 16 else 8) → h = 8 →
    ∃ m t, exec (.loadimg w h) s = .next t ∧ SentFrame { s with fb := m } t ∧
      (∀ x y : Int, mapPixel s.topo x y .a ≠ none →
        pixelRead s.topo m x y = some (if s.topo = .m8x8x2 then sample s.src x y else sample s.src x y &&& 1#2)) ∧
      (s.topo = .m8x8 → ∀ r, fbRead m (2 * r + 2) = fbRead s.fb (2 * r + 2))

/-- R172: LOADIMG with another size changes RESP only, to 0x20000000: no sample, no frame, FB unchanged. -/
def Obligations.WrongSizeLoadimgOnlyWritesResp : Prop :=
  ∀ (s : State) (w h : Nat), (w ≠ (if s.topo = .m16x8c ∨ s.topo = .m16x8d then 16 else 8) ∨ h ≠ 8) →
    exec (.loadimg w h) s = .next { s with resp := 0x20000000#32 }

/-! ### The shift engine -/

/-- R132, R133: the horizontal unit shifts, every new pixel from the old grid, and the sign of dx that each is used for. -/
def Obligations.HorizontalUnitShiftMovesRows : Prop :=
  (∀ dx : Int, (0 < dx → horizontalDir dx = .right) ∧ (dx < 0 → horizontalDir dx = .left)) ∧
  ∀ (t : Topology) (wrap : Bool) (fb : Memory) (x y : Nat), x < columns t → y < rows t →
    pixelRead t (unitShift t wrap fb .right) x y =
      (if 1 ≤ x then pixelRead t fb ((x : Int) - 1) y
       else if wrap then pixelRead t fb ((columns t : Int) - 1) y else some Colour.off) ∧
    pixelRead t (unitShift t wrap fb .left) x y =
      (if x + 2 ≤ columns t then pixelRead t fb ((x : Int) + 1) y
       else if wrap then pixelRead t fb 0 y else some Colour.off)

/-- R134, R135: the vertical unit shifts, every new pixel from the old grid, and the sign of dy that each is used for. -/
def Obligations.VerticalUnitShiftMovesColumns : Prop :=
  (∀ dy : Int, (0 < dy → verticalDir dy = .down) ∧ (dy < 0 → verticalDir dy = .up)) ∧
  ∀ (t : Topology) (wrap : Bool) (fb : Memory) (x y : Nat), x < columns t → y < rows t →
    pixelRead t (unitShift t wrap fb .down) x y =
      (if 1 ≤ y then pixelRead t fb x ((y : Int) - 1)
       else if wrap then pixelRead t fb x ((rows t : Int) - 1) else some Colour.off) ∧
    pixelRead t (unitShift t wrap fb .up) x y =
      (if y + 2 ≤ rows t then pixelRead t fb x ((y : Int) + 1)
       else if wrap then pixelRead t fb x 0 else some Colour.off)

/-- R141: what a unit shift does to the raw bytes, topology by topology: rotations and moves of whole bytes. -/
def Obligations.UnitShiftByteForms : Prop :=
  ∀ (wrap : Bool) (fb : Memory) (r : Nat), r < 8 →
    -- M8X8: odd positions rotate horizontally and move vertically; even positions stay
    (fbRead (unitShift .m8x8 wrap fb .right) (2 * r + 1) =
        (fbRead fb (2 * r + 1)).rotateLeft 1 &&& (if wrap then 0xFF#8 else 0x7F#8) ∧
      fbRead (unitShift .m8x8 wrap fb .left) (2 * r + 1) =
        (fbRead fb (2 * r + 1)).rotateRight 1 &&& (if wrap then 0xFF#8 else 0xBF#8) ∧
      fbRead (unitShift .m8x8 wrap fb .down) (2 * r + 1) =
        (if 1 ≤ r then fbRead fb (2 * (r - 1) + 1) else if wrap then fbRead fb 15 else 0x00#8) ∧
      fbRead (unitShift .m8x8 wrap fb .up) (2 * r + 1) =
        (if r ≤ 6 then fbRead fb (2 * (r + 1) + 1) else if wrap then fbRead fb 1 else 0x00#8) ∧
      (∀ d, fbRead (unitShift .m8x8 wrap fb d) (2 * r + 2) = fbRead fb (2 * r + 2))) ∧
    -- the 16 by 8 topologies: whole bytes move horizontally; every byte shifts or rotates vertically
    (∀ t, t = .m16x8c ∨ t = .m16x8d →
      fbRead (unitShift t wrap fb .right) (2 * r + 1) =
        (if 1 ≤ r then fbRead fb (2 * (r - 1) + 1) else if wrap then fbRead fb 16 else 0x00#8) ∧
      fbRead (unitShift t wrap fb .right) (2 * r + 2) =
        (if 1 ≤ r then fbRead fb (2 * (r - 1) + 2) else fbRead fb 15) ∧
      fbRead (unitShift t wrap fb .left) (2 * r + 1) =
        (if r ≤ 6 then fbRead fb (2 * (r + 1) + 1) else fbRead fb 2) ∧
      fbRead (unitShift t wrap fb .left) (2 * r + 2) =
        (if r ≤ 6 then fbRead fb (2 * (r + 1) + 2) else if wrap then fbRead fb 1 else 0x00#8)) ∧
    -- the bi-colour topology: each plane's bytes move horizontally within the plane
    (∀ p, p = 1 ∨ p = 2 →
      fbRead (unitShift .m8x8x2 wrap fb .right) (2 * r + p) =
        (if 1 ≤ r then fbRead fb (2 * (r - 1) + p) else if wrap then fbRead fb (14 + p) else 0x00#8) ∧
      fbRead (unitShift .m8x8x2 wrap fb .left) (2 * r + p) =
        (if r ≤ 6 then fbRead fb (2 * (r + 1) + p) else if wrap then fbRead fb p else 0x00#8)) ∧
    (∀ t i, t = .m16x8c ∨ t = .m16x8d ∨ t = .m8x8x2 → i = 2 * r + 1 ∨ i = 2 * r + 2 →
      fbRead (unitShift t wrap fb .down) i = (if wrap then (fbRead fb i).rotateLeft 1 else fbRead fb i <<< 1) ∧
      fbRead (unitShift t wrap fb .up) i = (if wrap then (fbRead fb i).rotateRight 1 else fbRead fb i >>> 1))

/-- R137: SHIFT 0, 0 changes nothing but RESP and sends no frame. -/
def Obligations.ZeroShiftOnlyWritesResp : Prop :=
  ∀ (s : State) (wrap : Bool), exec (.shift 0 0 wrap) s = .next { s with resp := 0x00000000#32 }

/-- R130, R138: a SHIFT by one in one axis is that one unit shift and one frame, with either value of FLUSH_COALESCING and for every
answer of the sink. -/
def Obligations.ShiftByOneIsOneUnitShiftAndOneFrame : Prop :=
  ∀ (s : State) (wrap : Bool),
    (∃ t, exec (.shift 1 0 wrap) s = .next t ∧ SentFrame { s with fb := unitShift s.topo wrap s.fb .right } t) ∧
    (∃ t, exec (.shift (-1) 0 wrap) s = .next t ∧ SentFrame { s with fb := unitShift s.topo wrap s.fb .left } t) ∧
    (∃ t, exec (.shift 0 1 wrap) s = .next t ∧ SentFrame { s with fb := unitShift s.topo wrap s.fb .down } t) ∧
    (∃ t, exec (.shift 0 (-1) wrap) s = .next t ∧ SentFrame { s with fb := unitShift s.topo wrap s.fb .up } t)

/-- R138: with FLUSH_COALESCING = exact and every answer ok, SHIFT sends exactly `abs(dx) + abs(dy)` frames, the k-th being FB after
k unit shifts, and none else; all other state is as it was. -/
def Obligations.ExactShiftSendsAFramePerUnitShift : Prop :=
  ∀ (s : State) (dx dy : Int) (wrap : Bool), s.coalescing = .exactFrames → AllOk s.sink →
    let n := dx.natAbs + dy.natAbs
    exec (.shift dx dy wrap) s = .next { s with
      fb := fbAfterUnits s.topo wrap dx dy s.fb n
      bus := s.bus ++ (List.range n).map fun k =>
        { addr := s.busAddr, bytes := frameOf (fbAfterUnits s.topo wrap dx dy s.fb (k + 1)), answer := .ok }
      sink := { s.sink with script := s.sink.script.drop n }
      dev := if n = 0 then s.dev else .holds (fbData (fbAfterUnits s.topo wrap dx dy s.fb n))
      resp := 0x00000000#32 }

/-- R140 (decision D14): a flush answered `err(e)` ends SHIFT there, whether the answer stands in the sink's script or is the one it gives
for good. With FLUSH_COALESCING = exact, after j good flushes: FB holds the grid after j + 1 unit shifts, j + 1 frames were sent, the
rest is not made, and RESP carries e. With either value and whatever Config.omitsFrame is (log 10): the frames sent are FB after a
rising list of unit-shift counts; either the last of them is the failed one, and FB stays as it was sent, or the frames that were left
out made them so few that the failing answer was never drawn, and SHIFT is completed. -/
def Obligations.ExactShiftStopsAtTheFailedFlush : Prop :=
  ∀ (s : State) (dx dy : Int) (wrap : Bool) (j : Nat) (e : BitVec 16),
    (∀ k, k < j → sinkAnswer (sinkAfter^[k] s.sink) = .ok) → sinkAnswer (sinkAfter^[j] s.sink) = .err e →
    let n := dx.natAbs + dy.natAbs
    (s.coalescing = .exactFrames → j < n →
      ∃ d, exec (.shift dx dy wrap) s = .next { s with
        fb := fbAfterUnits s.topo wrap dx dy s.fb (j + 1)
        bus := s.bus ++ (List.range (j + 1)).map fun k =>
          { addr := s.busAddr, bytes := frameOf (fbAfterUnits s.topo wrap dx dy s.fb (k + 1)),
            answer := if k = j then .err e else .ok }
        sink := sinkAfter^[j + 1] s.sink
        dev := d
        resp := answerWord (.err e) }) ∧
    ∃ (ks : List Nat) (draws : Nat) (d : Dev), ks.Pairwise (· < ·) ∧ (∀ k ∈ ks, 1 ≤ k ∧ k ≤ n) ∧
      ((∃ k, ks.length = j + 1 ∧ ks.getLast? = some k ∧
          exec (.shift dx dy wrap) s = .next { s with
            fb := fbAfterUnits s.topo wrap dx dy s.fb k
            bus := s.bus ++ ks.map fun i =>
              { addr := s.busAddr, bytes := frameOf (fbAfterUnits s.topo wrap dx dy s.fb i),
                answer := if i = k then .err e else .ok }
            sink := sinkAfter^[j + 1] s.sink
            dev := d
            resp := answerWord (.err e)
            draws := draws }) ∨
        (ks.length ≤ j ∧ (n = 0 ∨ ks.getLast? = some n) ∧
          exec (.shift dx dy wrap) s = .next { s with
            fb := fbAfterUnits s.topo wrap dx dy s.fb n
            bus := s.bus ++ ks.map fun i =>
              { addr := s.busAddr, bytes := frameOf (fbAfterUnits s.topo wrap dx dy s.fb i), answer := .ok }
            sink := sinkAfter^[ks.length] s.sink
            dev := if n = 0 then s.dev else .holds (fbData (fbAfterUnits s.topo wrap dx dy s.fb n))
            resp := 0x00000000#32
            draws := draws }))

/-- R139 (decision D13), for either value of FLUSH_COALESCING and whatever Config.omitsFrame is (log 10): with every answer ok, the
frames SHIFT sends are FB after some whole numbers of unit shifts, in order, the last of them after the last unit shift. -/
def Obligations.CoalescedShiftEndsWithTheLastFrame : Prop :=
  ∀ (s : State) (dx dy : Int) (wrap : Bool), AllOk s.sink → 1 ≤ dx.natAbs + dy.natAbs →
    let n := dx.natAbs + dy.natAbs
    ∃ (ks : List Nat) (draws : Nat), ks.Pairwise (· < ·) ∧ (∀ k ∈ ks, 1 ≤ k ∧ k ≤ n) ∧ ks.getLast? = some n ∧
      exec (.shift dx dy wrap) s = .next { s with
        fb := fbAfterUnits s.topo wrap dx dy s.fb n
        bus := s.bus ++ ks.map fun k =>
          { addr := s.busAddr, bytes := frameOf (fbAfterUnits s.topo wrap dx dy s.fb k), answer := .ok }
        sink := { s.sink with script := s.sink.script.drop ks.length }
        dev := .holds (fbData (fbAfterUnits s.topo wrap dx dy s.fb n))
        resp := 0x00000000#32
        draws := draws }

/-- R143, R136 with R132 to R135: without wrap SHIFT translates the grid by (dx, dy), for every integer dx and dy: a pixel whose
source lies outside the grid is Off. -/
def Obligations.ShiftWithoutWrapTranslatesTheGrid : Prop :=
  ∀ (s : State) (dx dy : Int), AllOk s.sink →
    ∃ t, exec (.shift dx dy false) s = .next t ∧
      ∀ x y : Int, mapPixel s.topo x y .a ≠ none →
        pixelRead s.topo t.fb x y =
          if mapPixel s.topo (x - dx) (y - dy) .a ≠ none then pixelRead s.topo s.fb (x - dx) (y - dy)
          else some Colour.off

/-- R143, R136 with R132 to R135: with wrap SHIFT rotates the grid by (dx, dy) modulo its extents, for every integer dx and dy. -/
def Obligations.ShiftWithWrapRotatesTheGrid : Prop :=
  ∀ (s : State) (dx dy : Int), AllOk s.sink →
    ∃ t, exec (.shift dx dy true) s = .next t ∧
      ∀ x y : Int, mapPixel s.topo x y .a ≠ none →
        pixelRead s.topo t.fb x y =
          pixelRead s.topo s.fb ((x - dx) % (columns s.topo : Int)) ((y - dy) % (rows s.topo : Int))

/-- R142: a full cycle with wrap restores FB as a whole, in each axis and direction. -/
def Obligations.FullCycleWithWrapRestoresTheBuffer : Prop :=
  ∀ (s : State) (dx dy : Int), AllOk s.sink →
    (dx = columns s.topo ∧ dy = 0) ∨ (dx = -(columns s.topo : Int) ∧ dy = 0) ∨
      (dx = 0 ∧ dy = rows s.topo) ∨ (dx = 0 ∧ dy = -(rows s.topo : Int)) →
    ∃ t, exec (.shift dx dy true) s = .next t ∧ ∀ k, fbRead t.fb k = fbRead s.fb k

/-- R142: with wrap, SHIFT dx, dy then SHIFT -dx, -dy restores FB as a whole. -/
def Obligations.OppositeShiftWithWrapRestoresTheBuffer : Prop :=
  ∀ (s : State) (dx dy : Int), AllOk s.sink →
    ∃ t u, exec (.shift dx dy true) s = .next t ∧ exec (.shift (-dx) (-dy) true) t = .next u ∧
      ∀ k, fbRead u.fb k = fbRead s.fb k

/-! ### Buffer and controller commands -/

/-- R150 (decision D17): RDBIT answers whether any masked bit of FB[i] is set; RESP is all that changes. -/
def Obligations.RdbitTestsTheMaskedBits : Prop :=
  ∀ (s : State) (i : Nat) (m : Byte), 1 ≤ i → i ≤ 16 →
    exec (.rdbit i m) s =
      .next { s with resp := presentWord 0 (if ∃ b : Fin 8, (fbRead s.fb i).getLsbD b = true ∧ m.getLsbD b = true then 1 else 0) }

/-- R151 (decision D17): WRBIT sets or clears the masked bits of FB[i], leaves every other bit and byte, and sends one frame. -/
def Obligations.WrbitStoresTheMaskedBits : Prop :=
  ∀ (s : State) (i : Nat) (m : Byte) (v : Bool), 1 ≤ i → i ≤ 16 →
    ∃ fb t, exec (.wrbit i m v) s = .next t ∧ SentFrame { s with fb := fb } t ∧
      (∀ k, k ≠ i → fbRead fb k = fbRead s.fb k) ∧
      (∀ b, b < 8 → (fbRead fb i).getLsbD b = if m.getLsbD b then v else (fbRead s.fb i).getLsbD b)

/-- R152 (decision D18): FILLRAW 0x00 or 0xFF overwrites all sixteen data bytes and sends nothing. -/
def Obligations.FillrawStoresEveryDataByteAndSendsNothing : Prop :=
  ∀ (s : State) (b : Byte), (b = 0x00#8 ∨ b = 0xFF#8) →
    ∃ m, exec (.fillraw b) s = .next { s with fb := m, resp := 0x00000000#32 } ∧ fbRead m 0 = 0x00#8 ∧
      ∀ k, 1 ≤ k → k ≤ 16 → fbRead m k = b

/-- R154 (decision D12), R73: FLUSH sends FB[0..16] as one frame and changes nothing of FB. -/
def Obligations.FlushSendsTheWholeBuffer : Prop :=
  ∀ s : State, ∃ t, exec .flush s = .next t ∧ SentFrame s t

/-- R155 (decisions D14, D24): INIT's three one-byte writes 0x21, 0x81, 0xEF in order, BLINK and BRIGHT each stored before its own
byte, and the end at the first write answered `err(e)`; if all are answered ok, DEV is as it was. -/
def Obligations.InitSendsItsThreeBytesInOrder : Prop :=
  ∀ s : State,
    let a1 := sinkAnswer s.sink
    let k1 := sinkAfter s.sink
    let a2 := sinkAnswer k1
    let k2 := sinkAfter k1
    let a3 := sinkAnswer k2
    let b1 : BusEntry := { addr := s.busAddr, bytes := [0x21#8], answer := a1 }
    let b2 : BusEntry := { addr := s.busAddr, bytes := [0x81#8], answer := a2 }
    let b3 : BusEntry := { addr := s.busAddr, bytes := [0xEF#8], answer := a3 }
    ∃ d : Dev,
      (a1 ≠ .ok → exec .init s =
        .next { s with bus := s.bus ++ [b1], sink := k1, resp := answerWord a1, dev := d }) ∧
      (a1 = .ok → a2 ≠ .ok → exec .init s =
        .next { s with blink := 0#2, bus := s.bus ++ [b1, b2], sink := k2, resp := answerWord a2, dev := d }) ∧
      (a1 = .ok → a2 = .ok → exec .init s =
        .next { s with
          blink := 0#2, bright := 15#4, bus := s.bus ++ [b1, b2, b3], sink := sinkAfter k2,
          resp := answerWord a3, dev := d }) ∧
      (a1 = .ok → a2 = .ok → a3 = .ok → d = s.dev)

/-- R156: BLINK stores the rate's low two bits and then sends `0x80 | 0x01 | (BLINK << 1)`, whatever the operand. -/
def Obligations.BlinkStoresAndSendsTheRate : Prop :=
  ∀ (s : State) (rate : Byte),
    decodeWord (BitVec.ofNat 32 (0xD0000000 + rate.toNat)) = .ok (.blink rate) ∧
    ∃ t, exec (.blink rate) s = .next t ∧
      SentByte (BitVec.ofNat 8 (0x81 + 2 * (rate.toNat % 4))) { s with blink := BitVec.ofNat 2 rate.toNat } t

/-- R157: BRIGHT stores the level's low four bits and then sends `0xE0 | BRIGHT`, whatever the operand. -/
def Obligations.BrightStoresAndSendsTheLevel : Prop :=
  ∀ (s : State) (level : Byte),
    decodeWord (BitVec.ofNat 32 (0xE0000000 + level.toNat)) = .ok (.bright level) ∧
    ∃ t, exec (.bright level) s = .next t ∧
      SentByte (BitVec.ofNat 8 (0xE0 + level.toNat % 16)) { s with bright := BitVec.ofNat 4 level.toNat } t

/-- R70 to R73: the bus-side rows are their bus writes on their own; that a row runs alone and leaves RESP is the model's choice
(log 1). The trace, the sink and DEV change, nothing else. -/
def Obligations.BusSideRowsAreTheirBusWrites : Prop :=
  ∀ (s : State) (i : Instr) (bs : List Byte),
    (i = .oscOn ∧ bs = [0x21#8]) ∨ (∃ r : BitVec 2, i = .blinkCmd r ∧ bs = [BitVec.ofNat 8 (0x81 + 2 * r.toNat)]) ∨
      (∃ l : BitVec 4, i = .brightCmd l ∧ bs = [BitVec.ofNat 8 (0xE0 + l.toNat)]) ∨
      (∃ data : FrameData, i = .frame data ∧ bs = 0x00#8 :: data.toList) →
    ∃ d : Dev, exec i s = .next { s with
        bus := s.bus ++ [{ addr := s.busAddr, bytes := bs, answer := sinkAnswer s.sink }]
        sink := sinkAfter s.sink
        dev := d } ∧
      (sinkAnswer s.sink = .ok → ∀ data : FrameData, i = .frame data → d = .holds data) ∧
      (sinkAnswer s.sink = .ok → (∀ data : FrameData, i ≠ .frame data) → d = s.dev)

/-! ### How commands reduce to each other -/

/-- R153: on a monochrome topology GETP is RDBIT, and SETP is WRBIT, at the location MAP reports. -/
def Obligations.MonochromePixelCommandsAreBitCommands : Prop :=
  ∀ (s : State) (x y : Int) (l : BitLoc), s.topo ≠ .m8x8x2 → mapPixel s.topo x y .a = some l →
    exec (.getp x y) s = exec (.rdbit l.pos l.mask) s ∧
    ∀ v : Bool, exec (.setp x y (if v then 1#2 else 0#2)) s = exec (.wrbit l.pos l.mask v) s

/-- R153: a monochrome FILL is FILLRAW followed by FLUSH. -/
def Obligations.MonochromeFillIsFillrawThenFlush : Prop :=
  ∀ (s : State) (v : Bool), s.topo ≠ .m8x8x2 →
    ∃ t u, exec (.fillraw (if v then 0xFF#8 else 0x00#8)) s = .next t ∧ exec .flush t = .next u ∧
      exec (.fill (if v then 1#2 else 0#2)) s = .next u

/-! ### The whole machine -/

/-- R33, R27, R28, R67: every step keeps the invariant, from every state that has it. DEV after a failed write is log 9. -/
def Obligations.StepKeepsTheInvariant : Prop :=
  ∀ s t : State, Inv s → step s = .next t → Inv t

/-- R31, R33: reset, with any straps and any open contents, has the invariant. -/
def Obligations.ResetHasTheInvariant : Prop :=
  ∀ p : ResetParams, Inv (State.resetWith p)

/-- R31, R190 (decision D15), for any straps and any open contents (FB_RESET, CTRL_RESET); State.reset is one of them (logs 3 to 6). -/
def Obligations.ResetPutsEveryValueInPlace : Prop :=
  ∀ p : ResetParams,
    let s := State.resetWith p
    s.topo = p.topology ∧ s.busAddr = p.busAddress ∧ fbRead s.fb 0 = 0x00#8 ∧
      (∀ k : Fin 16, fbRead s.fb (k.val + 1) = p.fbReset[k.val]) ∧ s.blink = p.blinkReset ∧ s.bright = p.brightReset ∧
      s.resp = 0x00000000#32 ∧ s.bus = [] ∧ s.dev = .unknown ∧ s.port = []

/-- R22, R33, R7, R20: no instruction changes a strap or a parameter, the command word, the host's port or the image source; no step
changes a strap or a parameter. -/
def Obligations.StrapsAndHostSideNeverChange : Prop :=
  (∀ (i : Instr) (s : State), ∃ t, exec i s = .next t ∧ t.topo = s.topo ∧ t.busAddr = s.busAddr ∧
    t.setpFrames = s.setpFrames ∧ t.coalescing = s.coalescing ∧ t.cmd = s.cmd ∧ t.port = s.port ∧ t.src = s.src) ∧
  (∀ s t : State, step s = .next t → t.topo = s.topo ∧ t.busAddr = s.busAddr ∧ t.setpFrames = s.setpFrames ∧
    t.coalescing = s.coalescing)

/-- R27: the trace is appended to and never otherwise changed; every new entry is addressed to BUSADDR and has one of the four shapes. -/
def Obligations.BusTraceOnlyGrowsByTheFourShapes : Prop :=
  ∀ s t : State, step s = .next t →
    ∃ new, t.bus = s.bus ++ new ∧ ∀ e ∈ new, e.addr = s.busAddr ∧ FourShapes e.bytes

/-- R34, R23, R24, R25, R26: which instruction may change which state: FB only by SETP, FILL, LOADIMG, SHIFT, WRBIT, FILLRAW; BLINK only
by BLINK and INIT; BRIGHT only by BRIGHT and INIT; no bus write by MAP, GETP, RDBIT, FILLRAW; the bus-side rows leave RESP (log 1). -/
def Obligations.WriteMatrixHolds : Prop :=
  ∀ (i : Instr) (s : State), ∃ t, exec i s = .next t ∧
    (t.fb ≠ s.fb → (∃ x y c, i = .setp x y c) ∨ (∃ c, i = .fill c) ∨ (∃ w h, i = .loadimg w h) ∨
      (∃ dx dy wrap, i = .shift dx dy wrap) ∨ (∃ k m v, i = .wrbit k m v) ∨ (∃ b, i = .fillraw b)) ∧
    (t.blink ≠ s.blink → (∃ r, i = .blink r) ∨ i = .init) ∧
    (t.bright ≠ s.bright → (∃ l, i = .bright l) ∨ i = .init) ∧
    ((∃ x y p, i = .map x y p) ∨ (∃ x y, i = .getp x y) ∨ (∃ k m, i = .rdbit k m) ∨ (∃ b, i = .fillraw b) →
      t.bus = s.bus ∧ t.sink = s.sink ∧ t.dev = s.dev) ∧
    (isCommand i = false → t.resp = s.resp) ∧
    (t.draws ≠ s.draws → ∃ dx dy wrap, i = .shift dx dy wrap)

/-- R24, R25, R26, R27, R28: no instruction reads BLINK, BRIGHT, the old RESP, the trace, DEV, the port or the command word, and BUSADDR
(R34) only addresses its bus writes: two states that agree in the rest end in equal FB, RESP (the bus-side rows keep it, log 1), sink
and counter, their traces grow by entries of the same bytes and answers, and BLINK, BRIGHT and DEV are each kept in both runs or
equal after both. -/
def Obligations.OutputsAreNeverReadBack : Prop :=
  ∀ (i : Instr) (s s' : State), s'.topo = s.topo → s'.setpFrames = s.setpFrames → s'.coalescing = s.coalescing →
    s'.fb = s.fb → s'.src = s.src → s'.sink = s.sink → s'.draws = s.draws →
    ∃ (t t' : State) (new new' : List BusEntry), exec i s = .next t ∧ exec i s' = .next t' ∧
      t'.fb = t.fb ∧ t'.sink = t.sink ∧ t'.draws = t.draws ∧
      (if isCommand i then t'.resp = t.resp else t.resp = s.resp ∧ t'.resp = s'.resp) ∧
      t.bus = s.bus ++ new ∧ t'.bus = s'.bus ++ new' ∧
      new'.map (fun e => (e.bytes, e.answer)) = new.map (fun e => (e.bytes, e.answer)) ∧
      (∀ e ∈ new, e.addr = s.busAddr) ∧ (∀ e ∈ new', e.addr = s'.busAddr) ∧
      (t'.blink = t.blink ∨ t.blink = s.blink ∧ t'.blink = s'.blink) ∧
      (t'.bright = t.bright ∨ t.bright = s.bright ∧ t'.bright = s'.bright) ∧
      (t'.dev = t.dev ∨ t.dev = s.dev ∧ t'.dev = s'.dev)

/-- R170, R176: every instruction, in every state, ends in a next state; no outcome stops the machine. -/
def Obligations.EveryInstructionEndsInANextState : Prop :=
  ∀ (i : Instr) (s : State), ∃ t, exec i s = .next t

/-- R51, R48: after a command that ends with a flush, if it is completed (RESP 0x00000000), DEV equals FB[1..16]. -/
def Obligations.CompletedFlushingCommandMakesDeviceEqualBuffer : Prop :=
  ∀ (i : Instr) (s : State),
    (∃ x y c, i = .setp x y c ∧ mapPixel s.topo x y .a ≠ none) ∨ (∃ c, i = .fill c) ∨ (∃ w h, i = .loadimg w h) ∨
      (∃ dx dy wrap, i = .shift dx dy wrap ∧ (dx ≠ 0 ∨ dy ≠ 0)) ∨ (∃ k m v, i = .wrbit k m v) ∨ i = .flush →
    ∃ t, exec i s = .next t ∧ (t.resp = 0x00000000#32 → t.dev = .holds (fbData t.fb))

/-- R195, R205, R28: after a command that ends in TRANSPORT_ERROR nothing is known of DEV. That this holds after a failed one-byte
write too is the model's reading (log 9). -/
def Obligations.TransportErrorLeavesTheDeviceUnknown : Prop :=
  ∀ (i : Instr) (s : State), isCommand i = true →
    ∃ t, exec i s = .next t ∧ (respStatus t.resp = 3#4 → t.dev = .unknown)

/-- R193, R31: after INIT and FILL Off with every answer ok, FB, BLINK, BRIGHT, RESP and DEV are known whatever they were before. -/
def Obligations.BootSequenceMakesTheStateKnown : Prop :=
  ∀ s : State, AllOk s.sink →
    ∃ t u, exec .init s = .next t ∧ exec (.fill Colour.off) t = .next u ∧ (∀ k, fbRead u.fb k = 0x00#8) ∧
      u.blink = 0#2 ∧ u.bright = 15#4 ∧ u.resp = 0x00000000#32 ∧ u.dev = .holds (Vector.replicate 16 0x00#8)

/-- R170, R176, R68 for the command words that wait: from any state with only command words waiting, no run of any length is ended by a
fault or a refusal. That a step with nothing left at the port answers the same state, which a run longer than the queue rests on, is the
model's choice (log 2, DESIGN CHOICE). -/
def Obligations.CommandRunsAreNeverStopped : Prop :=
  ∀ (n : Nat) (s : State), OnlyWordsWait s → RunsOn n s
end

