-- ==== Sys2Proof/Laws/Decode.lean ====
section
/-! SUPPORT. The fields of a command word and the round trips of single fields (spec/30_encoding.md R60, R61, R63). -/

namespace Sys2Proof

/-! ### A word built from its fields gives them back -/

/-- The value of a command word, most significant field first (R61). -/
theorem cmdWord_toNat (op : BitVec 4) (w : Bool) (c : BitVec 2) (b a : Byte) :
    (cmdWord op w c b a).toNat = op.toNat * 2 ^ 28 + w.toNat * 2 ^ 18 + c.toNat * 2 ^ 16 + b.toNat * 2 ^ 8 + a.toNat := by
  have hc := c.isLt
  have hb := b.isLt
  have ha := a.isLt
  have hw : w.toNat < 2 := Bool.toNat_lt w
  have glue : ∀ x y n : Nat, y < 2 ^ n → x * 2 ^ n ||| y = x * 2 ^ n + y := fun x y n h => by
    rw [← Nat.shiftLeft_eq, Nat.shiftLeft_add_eq_or_of_lt h]
  simp only [cmdWord, BitVec.toNat_append, Nat.shiftLeft_eq, BitVec.toNat_ofBool, BitVec.toNat_ofNat]
  rw [glue _ _ 8 ha, glue _ _ 8 hb, glue _ _ 2 hc, glue _ _ 1 hw, glue _ _ 9 (by decide)]
  omega

@[simp] theorem fieldOP_cmdWord (op : BitVec 4) (w : Bool) (c : BitVec 2) (b a : Byte) : fieldOP (cmdWord op w c b a) = op := by
  apply BitVec.eq_of_toNat_eq
  have := op.isLt; have := c.isLt; have := b.isLt; have := a.isLt
  have hw : w.toNat < 2 := Bool.toNat_lt w
  simp only [fieldOP, BitVec.extractLsb'_toNat, cmdWord_toNat, Nat.shiftRight_eq_div_pow]
  omega

@[simp] theorem fieldC_cmdWord (op : BitVec 4) (w : Bool) (c : BitVec 2) (b a : Byte) : fieldC (cmdWord op w c b a) = c := by
  apply BitVec.eq_of_toNat_eq
  have := op.isLt; have := c.isLt; have := b.isLt; have := a.isLt
  have hw : w.toNat < 2 := Bool.toNat_lt w
  simp only [fieldC, BitVec.extractLsb'_toNat, cmdWord_toNat, Nat.shiftRight_eq_div_pow]
  omega

@[simp] theorem fieldB_cmdWord (op : BitVec 4) (w : Bool) (c : BitVec 2) (b a : Byte) : fieldB (cmdWord op w c b a) = b := by
  apply BitVec.eq_of_toNat_eq
  have := op.isLt; have := c.isLt; have := b.isLt; have := a.isLt
  have hw : w.toNat < 2 := Bool.toNat_lt w
  simp only [fieldB, BitVec.extractLsb'_toNat, cmdWord_toNat, Nat.shiftRight_eq_div_pow]
  omega

@[simp] theorem fieldA_cmdWord (op : BitVec 4) (w : Bool) (c : BitVec 2) (b a : Byte) : fieldA (cmdWord op w c b a) = a := by
  apply BitVec.eq_of_toNat_eq
  have := op.isLt; have := c.isLt; have := b.isLt; have := a.isLt
  have hw : w.toNat < 2 := Bool.toNat_lt w
  simp only [fieldA, BitVec.extractLsb'_toNat, cmdWord_toNat, Nat.shiftRight_eq_div_pow]
  omega

@[simp] theorem fieldW_cmdWord (op : BitVec 4) (w : Bool) (c : BitVec 2) (b a : Byte) : fieldW (cmdWord op w c b a) = w := by
  have := op.isLt; have := c.isLt; have := b.isLt; have := a.isLt
  simp only [fieldW, BitVec.getLsbD, Nat.testBit_eq_decide_div_mod_eq, cmdWord_toNat]
  cases w <;> simp <;> omega

/-! ### A word whose reserved bits are zero is built from its fields (R60) -/

/-- Bits 27:19, reserved, always 0 (R60). -/
def fieldReserved (w : Word) : BitVec 9 := w.extractLsb' 19 9

theorem cmdWord_fields {w : Word} (h : fieldReserved w = 0#9) :
    cmdWord (fieldOP w) (fieldW w) (fieldC w) (fieldB w) (fieldA w) = w := by
  apply BitVec.eq_of_toNat_eq
  have hw := w.isLt
  have hr := congrArg BitVec.toNat h
  simp only [fieldReserved, BitVec.extractLsb'_toNat, Nat.shiftRight_eq_div_pow, BitVec.toNat_ofNat] at hr
  have hb : (fieldW w).toNat = w.toNat / 2 ^ 18 % 2 := by
    simp only [fieldW, BitVec.getLsbD, Nat.testBit_eq_decide_div_mod_eq]
    have : w.toNat / 2 ^ 18 % 2 = 0 ∨ w.toNat / 2 ^ 18 % 2 = 1 := by omega
    rcases this with h | h <;> rw [h] <;> rfl
  rw [cmdWord_toNat, hb]
  simp only [fieldOP, fieldC, fieldB, fieldA, BitVec.extractLsb'_toNat, Nat.shiftRight_eq_div_pow]
  omega

/-! ### Operands and fields (R63) -/

theorem sext8_signedField {x : Int} (h : fitsSigned8 x = true) : sext8 (signedField x) = x := by
  simp only [fitsSigned8, Bool.and_eq_true, decide_eq_true_eq] at h
  simp only [sext8, signedField, BitVec.toInt_ofInt]
  exact Int.bmod_eq_of_le (by omega) (by omega)

theorem signedField_sext8 (b : Byte) : signedField (sext8 b) = b := by
  simp [signedField, sext8]

theorem fits_sext8 (b : Byte) : fitsSigned8 (sext8 b) = true := by
  have h1 := BitVec.le_toInt b
  have h2 := BitVec.toInt_lt (x := b)
  unfold fitsSigned8 sext8
  rw [Bool.and_eq_true, decide_eq_true_eq, decide_eq_true_eq]
  omega

theorem zext8_unsignedField {n : Nat} (h : fitsUnsigned8 n = true) : zext8 (unsignedField n) = n := by
  simp only [fitsUnsigned8, decide_eq_true_eq] at h
  simp only [zext8, unsignedField, BitVec.toNat_ofNat]
  omega

theorem unsignedField_zext8 (b : Byte) : unsignedField (zext8 b) = b := by
  simp [unsignedField, zext8]

theorem fits_zext8 (b : Byte) : fitsUnsigned8 (zext8 b) = true := by
  have := b.isLt
  unfold fitsUnsigned8 zext8
  rw [decide_eq_true_eq]
  omega

theorem planeOf_planeField (p : Plane) : planeOf (planeField p) = p := by cases p <;> rfl

theorem valueField_bit (v : Bool) : (valueField v).getLsbD 0 = v := by cases v <;> rfl

/-! ### Bus-side bytes (R70 to R74) -/

theorem decodeBusByte_oscOn : decodeBusByte oscOnByte = .ok .oscOn := by decide

theorem decodeBusByte_blink (r : BitVec 2) : decodeBusByte (blinkByte r) = .ok (.blinkCmd r) := by revert r; decide

theorem decodeBusByte_bright (l : BitVec 4) : decodeBusByte (brightByte l) = .ok (.brightCmd l) := by revert l; decide

/-- A bus write that begins with 0x00 and carries sixteen more bytes is the frame of those bytes (R73). -/
theorem decodeBus_frame (data : FrameData) : decodeBus (frameBytes data) = .ok (.frame data) := by
  have hl : data.toList.length = 16 := by simp
  unfold frameBytes decodeBus
  split
  · next h => cases h
  · next h => simp at h
  · next z d _ h =>
    rw [List.cons.injEq] at h
    obtain ⟨rfl, rfl⟩ := h
    simp only [hl, dif_pos, if_true]
    rfl

end Sys2Proof
end

