-- ==== Sys2Proof/Laws/Memory.lean ====
section
/-! SUPPORT. The laws of memory: what a byte reads as after a write, and that every memory operation keeps the canonical
form (spec/20_memory.md R44, R47). -/

namespace Sys2Proof.Machine

open Sys2Proof

theorem Memory.read_erase (m : Memory) (i k : Nat) :
    Memory.read (Memory.erase m i) k = if k = i then Config.fbUnlisted else Memory.read m k := by
  induction m with
  | nil => simp [Memory.erase, Memory.read]
  | cons c m ih =>
    obtain ⟨a, v⟩ := c
    by_cases h : a = i
    · subst h
      by_cases hk : k = a
      · simpa [Memory.erase, hk] using ih.trans (by simp [hk])
      · simp [Memory.erase, Memory.read, ih, hk, Ne.symm hk]
    · by_cases hk : a = k
      · subst hk
        simp [Memory.erase, Memory.read, h]
      · simp [Memory.erase, Memory.read, h, hk, ih]

theorem Memory.mem_erase_ne (m : Memory) (i : Nat) : ∀ c ∈ Memory.erase m i, c.1 ≠ i := by
  induction m with
  | nil => simp [Memory.erase]
  | cons c m ih =>
    obtain ⟨a, v⟩ := c
    by_cases h : a = i
    · simpa [Memory.erase, h] using ih
    · intro d hd
      simp only [Memory.erase, h, if_false, List.mem_cons] at hd
      rcases hd with rfl | hd
      · exact h
      · exact ih d hd

theorem Memory.read_insert (m : Memory) (i : Nat) (v : Byte) (k : Nat) (h : ∀ c ∈ m, c.1 ≠ i) :
    Memory.read (Memory.insert m i v) k = if k = i then v else Memory.read m k := by
  induction m with
  | nil => simp [Memory.insert, Memory.read, eq_comm]
  | cons c m ih =>
    obtain ⟨a, b⟩ := c
    have ha : a ≠ i := h (a, b) (by simp)
    have ih := ih fun c hc => h c (by simp [hc])
    by_cases hlt : i < a
    · simp [Memory.insert, hlt, Memory.read, eq_comm]
    · by_cases hk : a = k
      · subst hk
        simp [Memory.insert, hlt, Memory.read, ha]
      · simp [Memory.insert, hlt, Memory.read, hk, ih]

/-- A byte after a write: the value written there, and every other byte as before. -/
theorem Memory.read_write (m : Memory) (i : Nat) (v : Byte) (k : Nat) :
    Memory.read (Memory.write m i v) k = if k = i then v else Memory.read m k := by
  unfold Memory.write
  split
  · next h => rw [Memory.read_erase, h]
  · rw [Memory.read_insert _ _ _ _ (Memory.mem_erase_ne m i), Memory.read_erase]
    split <;> simp_all

/-! ### The canonical form -/

theorem Memory.wfFrom_mono {lo lo' : Nat} (h : lo' ≤ lo) : ∀ {m : Memory}, Memory.wfFrom lo m = true → Memory.wfFrom lo' m = true
  | [], _ => rfl
  | (a, v) :: m, hm => by
    simp only [Memory.wfFrom, Bool.and_eq_true, decide_eq_true_eq] at hm ⊢
    exact ⟨⟨⟨by omega, hm.1.1.2⟩, hm.1.2⟩, hm.2⟩

theorem Memory.wfFrom_erase (i : Nat) : ∀ {lo : Nat} {m : Memory}, Memory.wfFrom lo m = true → Memory.wfFrom lo (Memory.erase m i) = true
  | _, [], _ => rfl
  | lo, (a, v) :: m, hm => by
    simp only [Memory.wfFrom, Bool.and_eq_true, decide_eq_true_eq] at hm
    have ih := Memory.wfFrom_erase i hm.2
    by_cases h : a = i
    · simp only [Memory.erase, h, if_true]
      exact Memory.wfFrom_mono (by omega) (h ▸ ih)
    · simp only [Memory.erase, h, if_false, Memory.wfFrom, Bool.and_eq_true, decide_eq_true_eq]
      exact ⟨hm.1, ih⟩

theorem Memory.wfFrom_insert {i : Nat} {v : Byte} (hi : i ≤ 16) (hv : v ≠ Config.fbUnlisted) :
    ∀ {lo : Nat} {m : Memory}, lo ≤ i → (∀ c ∈ m, c.1 ≠ i) → Memory.wfFrom lo m = true →
      Memory.wfFrom lo (Memory.insert m i v) = true
  | _, [], hlo, _, _ => by simp [Memory.insert, Memory.wfFrom, hlo, hi, hv]
  | lo, (a, b) :: m, hlo, hne, hm => by
    have hm' := hm
    simp only [Memory.wfFrom, Bool.and_eq_true, decide_eq_true_eq] at hm
    have ha : a ≠ i := hne (a, b) (by simp)
    by_cases h : i < a
    · simp only [Memory.insert, h, if_true, Memory.wfFrom, Bool.and_eq_true, decide_eq_true_eq]
      exact ⟨⟨⟨hlo, hi⟩, by simpa using hv⟩, ⟨⟨⟨by omega, hm.1.1.2⟩, hm.1.2⟩, hm.2⟩⟩
    · simp only [Memory.insert, h, if_false, Memory.wfFrom, Bool.and_eq_true, decide_eq_true_eq]
      exact ⟨hm.1, Memory.wfFrom_insert hi hv (by omega) (fun c hc => hne c (by simp [hc])) hm.2⟩

/-- A write to a data position keeps the canonical form. -/
theorem Memory.wf_write {m : Memory} {i : Nat} (v : Byte) (h1 : 1 ≤ i) (h2 : i ≤ 16) (hm : Memory.wf m = true) :
    Memory.wf (Memory.write m i v) = true := by
  unfold Memory.write
  split
  · exact Memory.wfFrom_erase i hm
  · next hv => exact Memory.wfFrom_insert h2 hv h1 (Memory.mem_erase_ne m i) (Memory.wfFrom_erase i hm)

theorem Memory.wf_nil : Memory.wf [] = true := rfl

theorem Memory.wf_foldl {α : Type} (f : Memory → α → Memory) (hf : ∀ m a, Memory.wf m = true → Memory.wf (f m a) = true) :
    ∀ (l : List α) (m : Memory), Memory.wf m = true → Memory.wf (l.foldl f m) = true
  | [], _, hm => hm
  | a :: l, m, hm => Memory.wf_foldl f hf l (f m a) (hf m a hm)

/-! ### The frame buffer -/

/-- A byte of FB after a byte write (R11, R44): position 0 and the positions above 16 take no write. -/
theorem fbRead_fbWrite (m : Memory) (i : Nat) (v : Byte) (k : Nat) :
    fbRead (fbWrite m i v) k = if k = i ∧ 1 ≤ i ∧ i ≤ 16 then v else fbRead m k := by
  unfold fbRead fbWrite
  by_cases hi : 1 ≤ i ∧ i ≤ 16
  · by_cases hk : k = i
    · subst hk
      simp [hi, Memory.read_write]
    · simp [hi, Memory.read_write, hk]
  · by_cases hk : k = i
    · subst hk
      simp [hi]
    · simp [hi, hk]

/-- FB[0] is 0x00 (R23). -/
@[simp] theorem fbRead_zero (m : Memory) : fbRead m 0 = 0x00#8 := rfl

theorem fbWrite_wf {m : Memory} (i : Nat) (v : Byte) (hm : Memory.wf m = true) : Memory.wf (fbWrite m i v) = true := by
  unfold fbWrite
  split
  · next h => exact Memory.wf_write v h.1 h.2 hm
  · exact hm

theorem fbRead_out (m : Memory) {k : Nat} (h : ¬(1 ≤ k ∧ k ≤ 16)) : fbRead m k = 0x00#8 := by
  simp [fbRead, h]

/-- Two buffers with the same bytes have the same data. -/
theorem fbData_congr {m m' : Memory} (h : ∀ k, fbRead m k = fbRead m' k) : fbData m = fbData m' := by
  simp [fbData, h]

theorem Memory.ofData_wf (d : Vector Byte 16) : Memory.wf (Memory.ofData d) = true := by
  unfold Memory.ofData
  suffices h : ∀ (l : List Nat) (m : Memory), (∀ k ∈ l, k < 16) → Memory.wf m = true →
      Memory.wf (l.foldl (fun m k => Memory.write m (k + 1) (d.toList.getD k Config.fbUnlisted)) m) = true from
    h _ _ (fun k hk => by simpa using hk) rfl
  intro l
  induction l with
  | nil => exact fun m _ hm => hm
  | cons k l ih =>
    intro m hl hm
    have hk : k < 16 := hl k (by simp)
    exact ih _ (fun j hj => hl j (by simp [hj])) (Memory.wf_write _ (by omega) (by omega) hm)

end Sys2Proof.Machine
end

