-- ==== Sys2Proof/Laws/State.lean ====
section
/-! SUPPORT. One lemma per field per named update of State, true by rfl, so that no later proof unfolds a record update. -/

namespace Sys2Proof.Machine.State

open Sys2Proof

variable (s : State)

/-! ### withFb -/

@[simp] theorem withFb_topo (m : Memory) : (s.withFb m).topo = s.topo := rfl
@[simp] theorem withFb_busAddr (m : Memory) : (s.withFb m).busAddr = s.busAddr := rfl
@[simp] theorem withFb_setpFrames (m : Memory) : (s.withFb m).setpFrames = s.setpFrames := rfl
@[simp] theorem withFb_coalescing (m : Memory) : (s.withFb m).coalescing = s.coalescing := rfl
@[simp] theorem withFb_fb (m : Memory) : (s.withFb m).fb = m := rfl
@[simp] theorem withFb_blink (m : Memory) : (s.withFb m).blink = s.blink := rfl
@[simp] theorem withFb_bright (m : Memory) : (s.withFb m).bright = s.bright := rfl
@[simp] theorem withFb_resp (m : Memory) : (s.withFb m).resp = s.resp := rfl
@[simp] theorem withFb_bus (m : Memory) : (s.withFb m).bus = s.bus := rfl
@[simp] theorem withFb_dev (m : Memory) : (s.withFb m).dev = s.dev := rfl
@[simp] theorem withFb_cmd (m : Memory) : (s.withFb m).cmd = s.cmd := rfl
@[simp] theorem withFb_port (m : Memory) : (s.withFb m).port = s.port := rfl
@[simp] theorem withFb_src (m : Memory) : (s.withFb m).src = s.src := rfl
@[simp] theorem withFb_sink (m : Memory) : (s.withFb m).sink = s.sink := rfl
@[simp] theorem withFb_draws (m : Memory) : (s.withFb m).draws = s.draws := rfl

/-! ### withBlink -/

@[simp] theorem withBlink_topo (r : BitVec 2) : (s.withBlink r).topo = s.topo := rfl
@[simp] theorem withBlink_busAddr (r : BitVec 2) : (s.withBlink r).busAddr = s.busAddr := rfl
@[simp] theorem withBlink_setpFrames (r : BitVec 2) : (s.withBlink r).setpFrames = s.setpFrames := rfl
@[simp] theorem withBlink_coalescing (r : BitVec 2) : (s.withBlink r).coalescing = s.coalescing := rfl
@[simp] theorem withBlink_fb (r : BitVec 2) : (s.withBlink r).fb = s.fb := rfl
@[simp] theorem withBlink_blink (r : BitVec 2) : (s.withBlink r).blink = r := rfl
@[simp] theorem withBlink_bright (r : BitVec 2) : (s.withBlink r).bright = s.bright := rfl
@[simp] theorem withBlink_resp (r : BitVec 2) : (s.withBlink r).resp = s.resp := rfl
@[simp] theorem withBlink_bus (r : BitVec 2) : (s.withBlink r).bus = s.bus := rfl
@[simp] theorem withBlink_dev (r : BitVec 2) : (s.withBlink r).dev = s.dev := rfl
@[simp] theorem withBlink_cmd (r : BitVec 2) : (s.withBlink r).cmd = s.cmd := rfl
@[simp] theorem withBlink_port (r : BitVec 2) : (s.withBlink r).port = s.port := rfl
@[simp] theorem withBlink_src (r : BitVec 2) : (s.withBlink r).src = s.src := rfl
@[simp] theorem withBlink_sink (r : BitVec 2) : (s.withBlink r).sink = s.sink := rfl
@[simp] theorem withBlink_draws (r : BitVec 2) : (s.withBlink r).draws = s.draws := rfl

/-! ### withBright -/

@[simp] theorem withBright_topo (l : BitVec 4) : (s.withBright l).topo = s.topo := rfl
@[simp] theorem withBright_busAddr (l : BitVec 4) : (s.withBright l).busAddr = s.busAddr := rfl
@[simp] theorem withBright_setpFrames (l : BitVec 4) : (s.withBright l).setpFrames = s.setpFrames := rfl
@[simp] theorem withBright_coalescing (l : BitVec 4) : (s.withBright l).coalescing = s.coalescing := rfl
@[simp] theorem withBright_fb (l : BitVec 4) : (s.withBright l).fb = s.fb := rfl
@[simp] theorem withBright_blink (l : BitVec 4) : (s.withBright l).blink = s.blink := rfl
@[simp] theorem withBright_bright (l : BitVec 4) : (s.withBright l).bright = l := rfl
@[simp] theorem withBright_resp (l : BitVec 4) : (s.withBright l).resp = s.resp := rfl
@[simp] theorem withBright_bus (l : BitVec 4) : (s.withBright l).bus = s.bus := rfl
@[simp] theorem withBright_dev (l : BitVec 4) : (s.withBright l).dev = s.dev := rfl
@[simp] theorem withBright_cmd (l : BitVec 4) : (s.withBright l).cmd = s.cmd := rfl
@[simp] theorem withBright_port (l : BitVec 4) : (s.withBright l).port = s.port := rfl
@[simp] theorem withBright_src (l : BitVec 4) : (s.withBright l).src = s.src := rfl
@[simp] theorem withBright_sink (l : BitVec 4) : (s.withBright l).sink = s.sink := rfl
@[simp] theorem withBright_draws (l : BitVec 4) : (s.withBright l).draws = s.draws := rfl

/-! ### withResp -/

@[simp] theorem withResp_topo (r : Word) : (s.withResp r).topo = s.topo := rfl
@[simp] theorem withResp_busAddr (r : Word) : (s.withResp r).busAddr = s.busAddr := rfl
@[simp] theorem withResp_setpFrames (r : Word) : (s.withResp r).setpFrames = s.setpFrames := rfl
@[simp] theorem withResp_coalescing (r : Word) : (s.withResp r).coalescing = s.coalescing := rfl
@[simp] theorem withResp_fb (r : Word) : (s.withResp r).fb = s.fb := rfl
@[simp] theorem withResp_blink (r : Word) : (s.withResp r).blink = s.blink := rfl
@[simp] theorem withResp_bright (r : Word) : (s.withResp r).bright = s.bright := rfl
@[simp] theorem withResp_resp (r : Word) : (s.withResp r).resp = r := rfl
@[simp] theorem withResp_bus (r : Word) : (s.withResp r).bus = s.bus := rfl
@[simp] theorem withResp_dev (r : Word) : (s.withResp r).dev = s.dev := rfl
@[simp] theorem withResp_cmd (r : Word) : (s.withResp r).cmd = s.cmd := rfl
@[simp] theorem withResp_port (r : Word) : (s.withResp r).port = s.port := rfl
@[simp] theorem withResp_src (r : Word) : (s.withResp r).src = s.src := rfl
@[simp] theorem withResp_sink (r : Word) : (s.withResp r).sink = s.sink := rfl
@[simp] theorem withResp_draws (r : Word) : (s.withResp r).draws = s.draws := rfl

/-! ### withDraw -/

@[simp] theorem withDraw_topo : (s.withDraw).topo = s.topo := rfl
@[simp] theorem withDraw_busAddr : (s.withDraw).busAddr = s.busAddr := rfl
@[simp] theorem withDraw_setpFrames : (s.withDraw).setpFrames = s.setpFrames := rfl
@[simp] theorem withDraw_coalescing : (s.withDraw).coalescing = s.coalescing := rfl
@[simp] theorem withDraw_fb : (s.withDraw).fb = s.fb := rfl
@[simp] theorem withDraw_blink : (s.withDraw).blink = s.blink := rfl
@[simp] theorem withDraw_bright : (s.withDraw).bright = s.bright := rfl
@[simp] theorem withDraw_resp : (s.withDraw).resp = s.resp := rfl
@[simp] theorem withDraw_bus : (s.withDraw).bus = s.bus := rfl
@[simp] theorem withDraw_dev : (s.withDraw).dev = s.dev := rfl
@[simp] theorem withDraw_cmd : (s.withDraw).cmd = s.cmd := rfl
@[simp] theorem withDraw_port : (s.withDraw).port = s.port := rfl
@[simp] theorem withDraw_src : (s.withDraw).src = s.src := rfl
@[simp] theorem withDraw_sink : (s.withDraw).sink = s.sink := rfl
@[simp] theorem withDraw_draws : (s.withDraw).draws = s.draws + 1 := rfl

/-! ### complete -/

@[simp] theorem complete_topo : (s.complete).topo = s.topo := rfl
@[simp] theorem complete_busAddr : (s.complete).busAddr = s.busAddr := rfl
@[simp] theorem complete_setpFrames : (s.complete).setpFrames = s.setpFrames := rfl
@[simp] theorem complete_coalescing : (s.complete).coalescing = s.coalescing := rfl
@[simp] theorem complete_fb : (s.complete).fb = s.fb := rfl
@[simp] theorem complete_blink : (s.complete).blink = s.blink := rfl
@[simp] theorem complete_bright : (s.complete).bright = s.bright := rfl
@[simp] theorem complete_resp : (s.complete).resp = respNothing := rfl
@[simp] theorem complete_bus : (s.complete).bus = s.bus := rfl
@[simp] theorem complete_dev : (s.complete).dev = s.dev := rfl
@[simp] theorem complete_cmd : (s.complete).cmd = s.cmd := rfl
@[simp] theorem complete_port : (s.complete).port = s.port := rfl
@[simp] theorem complete_src : (s.complete).src = s.src := rfl
@[simp] theorem complete_sink : (s.complete).sink = s.sink := rfl
@[simp] theorem complete_draws : (s.complete).draws = s.draws := rfl

/-! ### present -/

@[simp] theorem present_topo (p1 p0 : Byte) : (s.present p1 p0).topo = s.topo := rfl
@[simp] theorem present_busAddr (p1 p0 : Byte) : (s.present p1 p0).busAddr = s.busAddr := rfl
@[simp] theorem present_setpFrames (p1 p0 : Byte) : (s.present p1 p0).setpFrames = s.setpFrames := rfl
@[simp] theorem present_coalescing (p1 p0 : Byte) : (s.present p1 p0).coalescing = s.coalescing := rfl
@[simp] theorem present_fb (p1 p0 : Byte) : (s.present p1 p0).fb = s.fb := rfl
@[simp] theorem present_blink (p1 p0 : Byte) : (s.present p1 p0).blink = s.blink := rfl
@[simp] theorem present_bright (p1 p0 : Byte) : (s.present p1 p0).bright = s.bright := rfl
@[simp] theorem present_resp (p1 p0 : Byte) : (s.present p1 p0).resp = respPresent p1 p0 := rfl
@[simp] theorem present_bus (p1 p0 : Byte) : (s.present p1 p0).bus = s.bus := rfl
@[simp] theorem present_dev (p1 p0 : Byte) : (s.present p1 p0).dev = s.dev := rfl
@[simp] theorem present_cmd (p1 p0 : Byte) : (s.present p1 p0).cmd = s.cmd := rfl
@[simp] theorem present_port (p1 p0 : Byte) : (s.present p1 p0).port = s.port := rfl
@[simp] theorem present_src (p1 p0 : Byte) : (s.present p1 p0).src = s.src := rfl
@[simp] theorem present_sink (p1 p0 : Byte) : (s.present p1 p0).sink = s.sink := rfl
@[simp] theorem present_draws (p1 p0 : Byte) : (s.present p1 p0).draws = s.draws := rfl

/-! ### raise -/

@[simp] theorem raise_topo (o : Raised) : (s.raise o).topo = s.topo := rfl
@[simp] theorem raise_busAddr (o : Raised) : (s.raise o).busAddr = s.busAddr := rfl
@[simp] theorem raise_setpFrames (o : Raised) : (s.raise o).setpFrames = s.setpFrames := rfl
@[simp] theorem raise_coalescing (o : Raised) : (s.raise o).coalescing = s.coalescing := rfl
@[simp] theorem raise_fb (o : Raised) : (s.raise o).fb = s.fb := rfl
@[simp] theorem raise_blink (o : Raised) : (s.raise o).blink = s.blink := rfl
@[simp] theorem raise_bright (o : Raised) : (s.raise o).bright = s.bright := rfl
@[simp] theorem raise_resp (o : Raised) : (s.raise o).resp = respRaised o := rfl
@[simp] theorem raise_bus (o : Raised) : (s.raise o).bus = s.bus := rfl
@[simp] theorem raise_dev (o : Raised) : (s.raise o).dev = s.dev := rfl
@[simp] theorem raise_cmd (o : Raised) : (s.raise o).cmd = s.cmd := rfl
@[simp] theorem raise_port (o : Raised) : (s.raise o).port = s.port := rfl
@[simp] theorem raise_src (o : Raised) : (s.raise o).src = s.src := rfl
@[simp] theorem raise_sink (o : Raised) : (s.raise o).sink = s.sink := rfl
@[simp] theorem raise_draws (o : Raised) : (s.raise o).draws = s.draws := rfl

/-! ### afterBusWrite -/

@[simp] theorem afterBusWrite_topo (msg : BusMsg) : (s.afterBusWrite msg).topo = s.topo := rfl
@[simp] theorem afterBusWrite_busAddr (msg : BusMsg) : (s.afterBusWrite msg).busAddr = s.busAddr := rfl
@[simp] theorem afterBusWrite_setpFrames (msg : BusMsg) : (s.afterBusWrite msg).setpFrames = s.setpFrames := rfl
@[simp] theorem afterBusWrite_coalescing (msg : BusMsg) : (s.afterBusWrite msg).coalescing = s.coalescing := rfl
@[simp] theorem afterBusWrite_fb (msg : BusMsg) : (s.afterBusWrite msg).fb = s.fb := rfl
@[simp] theorem afterBusWrite_blink (msg : BusMsg) : (s.afterBusWrite msg).blink = s.blink := rfl
@[simp] theorem afterBusWrite_bright (msg : BusMsg) : (s.afterBusWrite msg).bright = s.bright := rfl
@[simp] theorem afterBusWrite_resp (msg : BusMsg) : (s.afterBusWrite msg).resp = s.resp := rfl
@[simp] theorem afterBusWrite_bus (msg : BusMsg) : (s.afterBusWrite msg).bus = s.bus ++ [{ addr := s.busAddr, bytes := busMsgBytes msg, answer := sinkAnswer s.sink }] := rfl
@[simp] theorem afterBusWrite_dev (msg : BusMsg) : (s.afterBusWrite msg).dev = devAfter msg (sinkAnswer s.sink) s.dev := rfl
@[simp] theorem afterBusWrite_cmd (msg : BusMsg) : (s.afterBusWrite msg).cmd = s.cmd := rfl
@[simp] theorem afterBusWrite_port (msg : BusMsg) : (s.afterBusWrite msg).port = s.port := rfl
@[simp] theorem afterBusWrite_src (msg : BusMsg) : (s.afterBusWrite msg).src = s.src := rfl
@[simp] theorem afterBusWrite_sink (msg : BusMsg) : (s.afterBusWrite msg).sink = sinkAfter s.sink := rfl
@[simp] theorem afterBusWrite_draws (msg : BusMsg) : (s.afterBusWrite msg).draws = s.draws := rfl

/-! ### accept -/

@[simp] theorem accept_topo (w : Word) (img : Image) (later : List Request) : (s.accept w img later).topo = s.topo := rfl
@[simp] theorem accept_busAddr (w : Word) (img : Image) (later : List Request) : (s.accept w img later).busAddr = s.busAddr := rfl
@[simp] theorem accept_setpFrames (w : Word) (img : Image) (later : List Request) : (s.accept w img later).setpFrames = s.setpFrames := rfl
@[simp] theorem accept_coalescing (w : Word) (img : Image) (later : List Request) : (s.accept w img later).coalescing = s.coalescing := rfl
@[simp] theorem accept_fb (w : Word) (img : Image) (later : List Request) : (s.accept w img later).fb = s.fb := rfl
@[simp] theorem accept_blink (w : Word) (img : Image) (later : List Request) : (s.accept w img later).blink = s.blink := rfl
@[simp] theorem accept_bright (w : Word) (img : Image) (later : List Request) : (s.accept w img later).bright = s.bright := rfl
@[simp] theorem accept_resp (w : Word) (img : Image) (later : List Request) : (s.accept w img later).resp = s.resp := rfl
@[simp] theorem accept_bus (w : Word) (img : Image) (later : List Request) : (s.accept w img later).bus = s.bus := rfl
@[simp] theorem accept_dev (w : Word) (img : Image) (later : List Request) : (s.accept w img later).dev = s.dev := rfl
@[simp] theorem accept_cmd (w : Word) (img : Image) (later : List Request) : (s.accept w img later).cmd = w := rfl
@[simp] theorem accept_port (w : Word) (img : Image) (later : List Request) : (s.accept w img later).port = later := rfl
@[simp] theorem accept_src (w : Word) (img : Image) (later : List Request) : (s.accept w img later).src = img := rfl
@[simp] theorem accept_sink (w : Word) (img : Image) (later : List Request) : (s.accept w img later).sink = s.sink := rfl
@[simp] theorem accept_draws (w : Word) (img : Image) (later : List Request) : (s.accept w img later).draws = s.draws := rfl

/-! ### acceptBusSide -/

@[simp] theorem acceptBusSide_topo (later : List Request) : (s.acceptBusSide later).topo = s.topo := rfl
@[simp] theorem acceptBusSide_busAddr (later : List Request) : (s.acceptBusSide later).busAddr = s.busAddr := rfl
@[simp] theorem acceptBusSide_setpFrames (later : List Request) : (s.acceptBusSide later).setpFrames = s.setpFrames := rfl
@[simp] theorem acceptBusSide_coalescing (later : List Request) : (s.acceptBusSide later).coalescing = s.coalescing := rfl
@[simp] theorem acceptBusSide_fb (later : List Request) : (s.acceptBusSide later).fb = s.fb := rfl
@[simp] theorem acceptBusSide_blink (later : List Request) : (s.acceptBusSide later).blink = s.blink := rfl
@[simp] theorem acceptBusSide_bright (later : List Request) : (s.acceptBusSide later).bright = s.bright := rfl
@[simp] theorem acceptBusSide_resp (later : List Request) : (s.acceptBusSide later).resp = s.resp := rfl
@[simp] theorem acceptBusSide_bus (later : List Request) : (s.acceptBusSide later).bus = s.bus := rfl
@[simp] theorem acceptBusSide_dev (later : List Request) : (s.acceptBusSide later).dev = s.dev := rfl
@[simp] theorem acceptBusSide_cmd (later : List Request) : (s.acceptBusSide later).cmd = s.cmd := rfl
@[simp] theorem acceptBusSide_port (later : List Request) : (s.acceptBusSide later).port = later := rfl
@[simp] theorem acceptBusSide_src (later : List Request) : (s.acceptBusSide later).src = s.src := rfl
@[simp] theorem acceptBusSide_sink (later : List Request) : (s.acceptBusSide later).sink = s.sink := rfl
@[simp] theorem acceptBusSide_draws (later : List Request) : (s.acceptBusSide later).draws = s.draws := rfl

/-! ### presented -/

@[simp] theorem presented_topo (c : Code) : (s.presented c).topo = s.topo := rfl
@[simp] theorem presented_busAddr (c : Code) : (s.presented c).busAddr = s.busAddr := rfl
@[simp] theorem presented_setpFrames (c : Code) : (s.presented c).setpFrames = s.setpFrames := rfl
@[simp] theorem presented_coalescing (c : Code) : (s.presented c).coalescing = s.coalescing := rfl
@[simp] theorem presented_fb (c : Code) : (s.presented c).fb = s.fb := rfl
@[simp] theorem presented_blink (c : Code) : (s.presented c).blink = s.blink := rfl
@[simp] theorem presented_bright (c : Code) : (s.presented c).bright = s.bright := rfl
@[simp] theorem presented_resp (c : Code) : (s.presented c).resp = s.resp := rfl
@[simp] theorem presented_bus (c : Code) : (s.presented c).bus = s.bus := rfl
@[simp] theorem presented_dev (c : Code) : (s.presented c).dev = s.dev := rfl
@[simp] theorem presented_cmd (c : Code) : (s.presented c).cmd = s.cmd := rfl
@[simp] theorem presented_port (c : Code) : (s.presented c).port = { code := c, src := s.src } :: s.port := rfl
@[simp] theorem presented_src (c : Code) : (s.presented c).src = s.src := rfl
@[simp] theorem presented_sink (c : Code) : (s.presented c).sink = s.sink := rfl
@[simp] theorem presented_draws (c : Code) : (s.presented c).draws = s.draws := rfl

end Sys2Proof.Machine.State
end

