-- ==== Sys2Proof/Laws/Ops.lean ====
section
/-! SUPPORT. What the shared operations do, said once: the bit accesses bit by bit, the bus write, the response words. -/

namespace Sys2Proof.Machine

open Sys2Proof

/-! ### Bits of the frame buffer -/

/-- One bit of FB: position and bit number (spec/20_memory.md R42). -/
abbrev fbBit (fb : Memory) (k b : Nat) : Bool := (fbRead fb k).getLsbD b

/-- Two bytes with the same eight bits are one byte. -/
theorem byte_ext {a b : Byte} (h : ∀ n, n < 8 → a.getLsbD n = b.getLsbD n) : a = b :=
  BitVec.eq_of_getLsbD_eq h

theorem oneHot_getLsbD {b : Nat} (hb : b < 8) (n : Nat) : (1#8 <<< b).getLsbD n = decide (n = b) := by
  by_cases h : n = b
  · subst h
    simp [hb]
  · simp only [BitVec.getLsbD_shiftLeft, h, decide_false]
    by_cases h1 : n < b
    · simp [h1]
    · have : n - b ≠ 0 := by omega
      simp [this]

/-- ReadBit of a one-hot mask is that bit (R150). -/
theorem readBit_oneHot (fb : Memory) (i : Nat) {b : Nat} (hb : b < 8) : readBit fb i (1#8 <<< b) = fbBit fb i b := by
  unfold readBit fbBit
  cases h : (fbRead fb i).getLsbD b with
  | true =>
    rw [bne_iff_ne]
    intro h0
    have := congrArg (fun v => BitVec.getLsbD v b) h0
    simp [oneHot_getLsbD hb, h] at this
  | false =>
    rw [bne_eq_false_iff_eq]
    apply byte_ext
    intro n _
    rw [BitVec.getLsbD_and, oneHot_getLsbD hb]
    by_cases hn : n = b
    · simp [hn, h]
    · simp [hn]

/-- A byte after WriteBit (R151): only the byte at `i` can change. -/
theorem fbRead_writeBit (fb : Memory) (i : Nat) (mask : Byte) (v : Bool) (k : Nat) :
    fbRead (writeBit fb i mask v) k =
      if k = i ∧ 1 ≤ i ∧ i ≤ 16 then (if v then fbRead fb i ||| mask else fbRead fb i &&& ~~~mask) else fbRead fb k := by
  unfold writeBit
  rw [fbRead_fbWrite]

/-- A bit after WriteBit (R151): the masked bits of the byte at `i` are `v`, every other bit is as before. -/
theorem fbBit_writeBit (fb : Memory) (i : Nat) (mask : Byte) (v : Bool) (k : Nat) {b : Nat} (hb : b < 8) :
    fbBit (writeBit fb i mask v) k b =
      if (k = i ∧ 1 ≤ i ∧ i ≤ 16) ∧ mask.getLsbD b = true then v else fbBit fb k b := by
  unfold fbBit
  rw [fbRead_writeBit]
  by_cases h : k = i ∧ 1 ≤ i ∧ i ≤ 16
  · obtain ⟨rfl, h1, h2⟩ := h
    cases v <;> cases hm : mask.getLsbD b <;>
      simp only [h1, h2, hm, hb, and_self, if_true, BitVec.getLsbD_and, BitVec.getLsbD_or, BitVec.getLsbD_not,
        decide_true, Bool.not_true, Bool.not_false, Bool.and_false, Bool.and_true, Bool.or_true,
        Bool.or_false, Bool.false_eq_true, and_false, if_false]
  · simp [h]

theorem writeBit_wf {fb : Memory} (i : Nat) (mask : Byte) (v : Bool) (h : Memory.wf fb = true) :
    Memory.wf (writeBit fb i mask v) = true := fbWrite_wf _ _ h

/-! ### Response words -/

/-- The response words are the words of R67. -/
theorem respNothing_eq : respNothing = 0x00000000#32 := by decide

theorem respRaised_illegal : respRaised .illegalCommand = 0x10000000#32 := by decide

theorem respRaised_dimension : respRaised .dimensionMismatch = 0x20000000#32 := by decide

theorem respRaised_transport (e : BitVec 16) :
    respRaised (.transportError e) = BitVec.ofNat 32 (0x30000000 + e.toNat) := by
  apply BitVec.eq_of_toNat_eq
  have he := e.isLt
  simp only [respRaised, respWord, BitVec.toNat_append, BitVec.extractLsb'_toNat, BitVec.toNat_ofNat,
    BitVec.ofBool_false, Nat.shiftLeft_eq, Nat.shiftRight_eq_div_pow]
  have h1 : e.toNat / 2 ^ 8 % 2 ^ 8 < 2 ^ 8 := Nat.mod_lt _ (by decide)
  have h2 : e.toNat / 2 ^ 0 % 2 ^ 8 < 2 ^ 8 := Nat.mod_lt _ (by decide)
  have or8 : ∀ a b : Nat, b < 2 ^ 8 → a * 2 ^ 8 ||| b = a * 2 ^ 8 + b := fun a b hb => by
    rw [← Nat.shiftLeft_eq, Nat.shiftLeft_add_eq_or_of_lt hb]
  rw [or8 _ _ h2, or8 _ _ h1]
  simp
  omega

theorem respPresent_eq (p1 p0 : Byte) :
    respPresent p1 p0 = BitVec.ofNat 32 (0x10000 + 256 * p1.toNat + p0.toNat) := by
  apply BitVec.eq_of_toNat_eq
  have h1 := p1.isLt
  have h0 := p0.isLt
  simp only [respPresent, respWord, BitVec.toNat_append, BitVec.toNat_ofNat,
    BitVec.ofBool_true, Nat.shiftLeft_eq]
  have or8 : ∀ a b : Nat, b < 2 ^ 8 → a * 2 ^ 8 ||| b = a * 2 ^ 8 + b := fun a b hb => by
    rw [← Nat.shiftLeft_eq, Nat.shiftLeft_add_eq_or_of_lt hb]
  rw [or8 _ _ h0, or8 _ _ h1]
  simp
  omega

/-! ### The bus write inside a command -/

/-- What a bus write inside a command can do: go on after an answer of ok, or end with TransportError (R173). -/
theorem send_eq (s : State) (msg : BusMsg) (goOn : State → State) :
    (sinkAnswer s.sink = .ok ∧ s.send msg goOn = goOn (s.afterBusWrite msg)) ∨
      (∃ e, sinkAnswer s.sink = .err e ∧ s.send msg goOn = (s.afterBusWrite msg).raise (.transportError e)) := by
  unfold State.send
  cases h : sinkAnswer s.sink with
  | ok => exact .inl ⟨rfl, rfl⟩
  | err e => exact .inr ⟨e, rfl, rfl⟩

theorem send_ok {s : State} (msg : BusMsg) (goOn : State → State) (h : sinkAnswer s.sink = .ok) :
    s.send msg goOn = goOn (s.afterBusWrite msg) := by
  simp [State.send, h]

theorem send_err {s : State} {e : BitVec 16} (msg : BusMsg) (goOn : State → State) (h : sinkAnswer s.sink = .err e) :
    s.send msg goOn = (s.afterBusWrite msg).raise (.transportError e) := by
  simp [State.send, h]

/-- The frame's bytes are the seventeen bytes of FB in ascending position (R73, R154). -/
theorem frameBytes_fbData (fb : Memory) : frameBytes (fbData fb) = (List.range 17).map (fbRead fb) := by
  simp [frameBytes, fbData, Vector.toList, Array.ofFn, List.range_succ_eq_map]
  rfl

@[simp] theorem devAfter_ok_frame (data : FrameData) (d : Dev) : devAfter (.frame data) .ok d = .holds data := rfl

@[simp] theorem devAfter_err (msg : BusMsg) (e : BitVec 16) (d : Dev) : devAfter msg (.err e) d = .unknown := rfl

end Sys2Proof.Machine
end

