-- ==== Sys2Proof/Laws/Mapper.lean ====
section
/-! SUPPORT. The mapper in closed form: the position and the bit number of every location (spec/40_mapper.md R91 to R96),
from which its later laws follow by arithmetic. -/

namespace Sys2Proof.Machine

open Sys2Proof

/-- The position of a location, in closed form. -/
def locPos (t : Topology) (x y : Int) (p : Plane) : Nat :=
  match t with
  | .m8x8 => (2 * y + 1).toNat
  | .m16x8c => if 8 ≤ x then (2 * (x - 8) + 2).toNat else (2 * x + 1).toNat
  | .m16x8d => if 8 ≤ x then (2 * (x - 8) + 2).toNat else (2 * x + 1).toNat
  | .m8x8x2 => if p = .a then (2 * x + 1).toNat else (2 * x + 2).toNat

/-- The bit number of a location, in closed form. -/
def locBit (t : Topology) (x y : Int) : Nat :=
  match t with
  | .m8x8 => if x = 0 then 7 else (x - 1).toNat
  | .m16x8c => y.toNat
  | .m16x8d => y.toNat
  | .m8x8x2 => y.toNat

/-- What it is to be in the domain, by topology (R6, R92). -/
theorem inDomain_iff (t : Topology) (x y : Int) :
    inDomain t x y = true ↔ 0 ≤ x ∧ x < (columns t : Int) ∧ 0 ≤ y ∧ y < (rows t : Int) := by
  simp [inDomain, and_assoc]

@[simp] theorem rows_eq (t : Topology) : rows t = 8 := by cases t <;> rfl

theorem columns_cases (t : Topology) : columns t = 8 ∨ columns t = 16 := by cases t <;> simp [columns]

/-- The base rule with the column's bit number and half given. -/
theorem baseRule_eq {col row : Int} {pos bit : Nat} (hp : (2 * row + col / 8 + 1).toNat = pos) (hb : (col % 8).toNat = bit) :
    baseRule col row = { pos := pos, mask := 1#8 <<< bit } := by
  simp [baseRule, hp, hb]

/-- Every in-domain location in closed form. -/
theorem topologyRule_eq {t : Topology} {x y : Int} (p : Plane) (h : inDomain t x y = true) :
    topologyRule t x y p = { pos := locPos t x y p, mask := 1#8 <<< locBit t x y } := by
  rw [inDomain_iff] at h
  obtain ⟨hx0, hx, hy0, hy⟩ := h
  have chained : columns t = 16 → chainedRule x y =
      { pos := if 8 ≤ x then (2 * (x - 8) + 2).toNat else (2 * x + 1).toNat, mask := 1#8 <<< y.toNat } := fun hc => by
    rw [rows_eq] at hy
    rw [hc] at hx
    unfold chainedRule
    split
    · exact baseRule_eq (by omega) (by omega)
    · exact baseRule_eq (by omega) (by omega)
  cases t with
  | m8x8 =>
    simp only [columns, rows] at hx hy
    refine baseRule_eq (by simp only [locPos]; omega) ?_
    simp only [locBit]
    split <;> omega
  | m16x8c => exact chained rfl
  | m16x8d => exact chained rfl
  | m8x8x2 =>
    simp only [columns, rows] at hx hy
    cases p with
    | a => exact baseRule_eq (by simp [locPos]; omega) (by simp [locBit]; omega)
    | b => exact baseRule_eq (by simp [locPos]; omega) (by simp [locBit]; omega)

theorem mapPixel_in {t : Topology} {x y : Int} (p : Plane) (h : inDomain t x y = true) :
    mapPixel t x y p = some { pos := locPos t x y p, mask := 1#8 <<< locBit t x y } := by
  simp [mapPixel, h, topologyRule_eq p h]

theorem mapPixel_out {t : Topology} {x y : Int} (p : Plane) (h : inDomain t x y = false) : mapPixel t x y p = none := by
  simp [mapPixel, h]

theorem mapPixel_eq_none_iff {t : Topology} {x y : Int} {p : Plane} :
    mapPixel t x y p = none ↔ inDomain t x y = false := by
  cases h : inDomain t x y <;> simp [mapPixel, h]

theorem locBit_lt {t : Topology} {x y : Int} (h : inDomain t x y = true) : locBit t x y < 8 := by
  rw [inDomain_iff, rows_eq] at h
  cases t <;> simp only [locBit, columns] at h ⊢ <;> first | omega | (split <;> omega)

theorem locPos_range {t : Topology} {x y : Int} (p : Plane) (h : inDomain t x y = true) :
    1 ≤ locPos t x y p ∧ locPos t x y p ≤ 16 := by
  rw [inDomain_iff, rows_eq] at h
  cases t <;> simp only [locPos, columns] at h ⊢ <;> first | omega | (split <;> omega)

/-- Two in-domain pixels with one position and bit number are one pixel, and one plane on M8X8X2. -/
theorem loc_injective {t : Topology} {x y x' y' : Int} {p p' : Plane} (h : inDomain t x y = true)
    (h' : inDomain t x' y' = true) (hp : locPos t x y p = locPos t x' y' p') (hb : locBit t x y = locBit t x' y') :
    x = x' ∧ y = y' ∧ (t = .m8x8x2 → p = p') := by
  rw [inDomain_iff, rows_eq] at h h'
  cases t with
  | m8x8 =>
    simp only [locPos, locBit, columns] at *
    refine ⟨?_, by omega, by simp⟩
    split at hb <;> split at hb <;> omega
  | m16x8c =>
    simp only [locPos, locBit, columns] at *
    refine ⟨?_, by omega, by simp⟩
    split at hp <;> split at hp <;> omega
  | m16x8d =>
    simp only [locPos, locBit, columns] at *
    refine ⟨?_, by omega, by simp⟩
    split at hp <;> split at hp <;> omega
  | m8x8x2 =>
    simp only [locPos, locBit, columns] at *
    cases p <;> cases p' <;> simp at hp ⊢ <;> omega

theorem oneHot_injective {b b' : Nat} (hb : b < 8) (hb' : b' < 8) (h : 1#8 <<< b = 1#8 <<< b') : b = b' := by
  have := congrArg (fun v => BitVec.getLsbD v b) h
  simpa [oneHot_getLsbD hb, oneHot_getLsbD hb'] using this

end Sys2Proof.Machine
end

