-- ==== Sys2Proof/Laws/Pixel.lean ====
section
/-! SUPPORT. The pixel helpers bit by bit: what a pixel reads as, what a pixel write changes, and what writing a list of
pixels leaves (spec/41_pixel_ops.md R111, spec/42_shift.md R131). -/

namespace Sys2Proof.Machine

open Sys2Proof

/-- The part of a colour that a topology stores: both bits on M8X8X2, bit 0 otherwise (R64, R65). -/
def storedColour (t : Topology) (c : Colour) : Colour := if t = .m8x8x2 then c else c &&& 1#2

theorem colourOf_bits (c : Colour) : colourOf (planeABit c) (planeBBit c) = c := by
  revert c; decide

theorem colourOf_mono (c : Colour) : colourOf false (planeBBit c) = c &&& 1#2 := by
  revert c; decide

theorem colourOf_injective {a b a' b' : Bool} (h : colourOf a b = colourOf a' b') : a = a' ∧ b = b' := by
  revert h; revert a b a' b'; decide

/-- PixelRead in the domain, by bits of FB. -/
theorem pixelRead_in {t : Topology} {x y : Int} (fb : Memory) (h : inDomain t x y = true) :
    pixelRead t fb x y = some (colourOf
      (decide (t = .m8x8x2) && fbBit fb (locPos t x y .a) (locBit t x y))
      (fbBit fb (locPos t x y (if t = .m8x8x2 then .b else .a)) (locBit t x y))) := by
  have hb := locBit_lt h
  by_cases ht : t = .m8x8x2
  · simp [pixelRead, ht, mapPixel_in _ (ht ▸ h), readBit_oneHot _ _ (ht ▸ hb)]
  · simp [pixelRead, ht, mapPixel_in _ h, readBit_oneHot _ _ hb]

theorem pixelRead_out {t : Topology} {x y : Int} (fb : Memory) (h : inDomain t x y = false) : pixelRead t fb x y = none := by
  by_cases ht : t = .m8x8x2
  · simp [pixelRead, ht, mapPixel_out _ (ht ▸ h)]
  · simp [pixelRead, ht, mapPixel_out _ h]

theorem pixelRead_eq_none_iff {t : Topology} {x y : Int} {fb : Memory} :
    pixelRead t fb x y = none ↔ inDomain t x y = false := by
  cases h : inDomain t x y
  · simp [pixelRead_out _ h]
  · simp [pixelRead_in _ h]

/-- PixelWrite in the domain. -/
theorem pixelWrite_in {t : Topology} {x y : Int} (fb : Memory) (c : Colour) (h : inDomain t x y = true) :
    pixelWrite t fb x y c = some (
      if t = .m8x8x2 then
        writeBit (writeBit fb (locPos t x y .a) (1#8 <<< locBit t x y) (planeABit c))
          (locPos t x y .b) (1#8 <<< locBit t x y) (planeBBit c)
      else writeBit fb (locPos t x y .a) (1#8 <<< locBit t x y) (planeBBit c)) := by
  by_cases ht : t = .m8x8x2
  · simp [pixelWrite, ht, mapPixel_in _ (ht ▸ h)]
  · simp [pixelWrite, ht, mapPixel_in _ h]

theorem pixelWrite_out {t : Topology} {x y : Int} (fb : Memory) (c : Colour) (h : inDomain t x y = false) :
    pixelWrite t fb x y c = none := by
  by_cases ht : t = .m8x8x2
  · simp [pixelWrite, ht, mapPixel_out _ (ht ▸ h)]
  · simp [pixelWrite, ht, mapPixel_out _ h]

theorem pixelWrite_eq_none_iff {t : Topology} {x y : Int} {fb : Memory} {c : Colour} :
    pixelWrite t fb x y c = none ↔ inDomain t x y = false := by
  cases h : inDomain t x y
  · simp [pixelWrite_out _ _ h]
  · simp [pixelWrite_in _ _ h]

/-- The plane that a bit of FB belongs to: the bit PixelWrite stores through plane `p`. -/
def planeBit (p : Plane) (t : Topology) (c : Colour) : Bool :=
  if t = .m8x8x2 ∧ p = .a then planeABit c else planeBBit c

/-- A bit of FB after an in-domain PixelWrite: the pixel's own bits hold the colour's, every other bit is as before. -/
theorem fbBit_pixelWrite {t : Topology} {x y : Int} {fb m : Memory} {c : Colour} (h : inDomain t x y = true)
    (hm : pixelWrite t fb x y c = some m) (k : Nat) {b : Nat} (hb : b < 8) :
    fbBit m k b =
      if b = locBit t x y ∧ k = locPos t x y .a then planeBit .a t c
      else if (t = .m8x8x2 ∧ b = locBit t x y) ∧ k = locPos t x y .b then planeBit .b t c
      else fbBit fb k b := by
  rw [pixelWrite_in fb c h, Option.some.injEq] at hm
  subst hm
  have ha := locPos_range .a h
  have hb' := locPos_range .b h
  have hl := locBit_lt h
  by_cases ht : t = .m8x8x2
  · subst ht
    have hne : locPos .m8x8x2 x y .a ≠ locPos .m8x8x2 x y .b := by
      have := h
      rw [inDomain_iff] at this
      simp [locPos]; omega
    simp only [if_true, fbBit_writeBit _ _ _ _ _ hb, oneHot_getLsbD hl, decide_eq_true_eq, ha, hb', and_true, true_and,
      planeBit, and_self]
    by_cases hk : k = locPos .m8x8x2 x y .a
    · have : k ≠ locPos .m8x8x2 x y .b := fun e => hne (hk.symm.trans e)
      simp [hk, hne]
    · by_cases hk' : k = locPos .m8x8x2 x y .b
      · simp [hk', Ne.symm hne]
      · simp [hk, hk']
  · simp [ht, fbBit_writeBit _ _ _ _ _ hb, oneHot_getLsbD hl, ha, planeBit, and_comm]

/-- Reading a pixel after writing one (R119 a, b): the written pixel reads as the colour stored, every other as before. -/
theorem pixelRead_pixelWrite {t : Topology} {x y x' y' : Int} {fb m : Memory} {c : Colour} (h : inDomain t x y = true)
    (h' : inDomain t x' y' = true) (hm : pixelWrite t fb x y c = some m) :
    pixelRead t m x' y' = if x' = x ∧ y' = y then some (storedColour t c) else pixelRead t fb x' y' := by
  rw [pixelRead_in m h', pixelRead_in fb h']
  have hb := locBit_lt h'
  simp only [fbBit_pixelWrite h hm _ hb]
  by_cases he : x' = x ∧ y' = y
  · obtain ⟨rfl, rfl⟩ := he
    by_cases ht : t = .m8x8x2
    · subst ht
      have hne : locPos .m8x8x2 x' y' .b ≠ locPos .m8x8x2 x' y' .a := by
        have := h
        rw [inDomain_iff] at this
        simp [locPos]; omega
      simp [storedColour, planeBit, hne, colourOf_bits]
    · simp [storedColour, planeBit, ht, colourOf_mono]
  · rw [if_neg he]
    have none : ∀ p p', ¬(locBit t x' y' = locBit t x y ∧ locPos t x' y' p = locPos t x y p') := fun p p' hh => by
      have := loc_injective h' h hh.2 hh.1
      exact he ⟨this.1, this.2.1⟩
    have n1 := none .a .a
    have n2 := none .a .b
    have n3 := none (if t = .m8x8x2 then .b else .a) .a
    have n4 := none (if t = .m8x8x2 then .b else .a) .b
    simp only [n1, n3, if_false]
    rw [if_neg (fun hh => n2 ⟨hh.1.2, hh.2⟩), if_neg (fun hh => n4 ⟨hh.1.2, hh.2⟩)]

theorem pixelWrite_wf {t : Topology} {fb m : Memory} {x y : Int} {c : Colour} (h : Memory.wf fb = true)
    (hm : pixelWrite t fb x y c = some m) : Memory.wf m = true := by
  cases hd : inDomain t x y with
  | false => rw [pixelWrite_out _ _ hd] at hm; cases hm
  | true =>
    rw [pixelWrite_in _ _ hd, Option.some.injEq] at hm
    subst hm
    split
    · exact writeBit_wf _ _ _ (writeBit_wf _ _ _ h)
    · exact writeBit_wf _ _ _ h

/-! ### Writing a list of pixels -/

theorem pixelRead_writePixels (t : Topology) (g : Int → Int → Colour) {x y : Int} (h : inDomain t x y = true) :
    ∀ (qs : List (Int × Int)) (fb : Memory), (∀ q ∈ qs, inDomain t q.1 q.2 = true) →
      pixelRead t (writePixels t g qs fb) x y =
        if (x, y) ∈ qs then some (storedColour t (g x y)) else pixelRead t fb x y
  | [], fb, _ => by simp [writePixels]
  | q :: qs, fb, hq => by
    have hq0 := hq q (by simp)
    obtain ⟨m, hm⟩ : ∃ m, pixelWrite t fb q.1 q.2 (g q.1 q.2) = some m := ⟨_, pixelWrite_in _ _ hq0⟩
    rw [writePixels, hm, Option.getD_some, pixelRead_writePixels t g h qs m fun r hr => hq r (by simp [hr]),
      pixelRead_pixelWrite hq0 h hm]
    by_cases hin : (x, y) ∈ qs
    · simp [hin]
    · by_cases he : x = q.1 ∧ y = q.2
      · obtain ⟨rfl, rfl⟩ := he
        simp [hin]
      · have : (x, y) ≠ q := fun e => he (by rw [← e]; exact ⟨rfl, rfl⟩)
        simp [hin, he, this]

theorem mem_pixels {t : Topology} {x y : Int} : (x, y) ∈ pixels t ↔ inDomain t x y = true := by
  rw [inDomain_iff]
  simp only [pixels, List.mem_flatMap, List.mem_map, List.mem_range, Prod.mk.injEq]
  constructor
  · rintro ⟨b, hb, a, ha, rfl, rfl⟩
    omega
  · rintro ⟨h1, h2, h3, h4⟩
    exact ⟨y.toNat, by omega, x.toNat, by omega, by omega, by omega⟩

/-- A pixel after WriteGrid (R131): the grid's colour, in the form the topology stores. -/
theorem pixelRead_writeGrid {t : Topology} (g : Int → Int → Colour) (fb : Memory) {x y : Int} (h : inDomain t x y = true) :
    pixelRead t (writeGrid t g fb) x y = some (storedColour t (g x y)) := by
  rw [writeGrid, pixelRead_writePixels t g h _ _ fun q hq => mem_pixels.1 hq, if_pos (mem_pixels.2 h)]

theorem writePixels_wf (t : Topology) (g : Int → Int → Colour) :
    ∀ (qs : List (Int × Int)) (fb : Memory), Memory.wf fb = true → Memory.wf (writePixels t g qs fb) = true
  | [], _, h => h
  | q :: qs, fb, h => by
    rw [writePixels]
    apply writePixels_wf t g qs
    cases hm : pixelWrite t fb q.1 q.2 (g q.1 q.2) with
    | none => exact h
    | some m => exact pixelWrite_wf h hm

theorem writeGrid_wf (t : Topology) (g : Int → Int → Colour) {fb : Memory} (h : Memory.wf fb = true) :
    Memory.wf (writeGrid t g fb) = true := writePixels_wf t g _ _ h

/-- On M8X8 no pixel write reaches an even position (R45). -/
theorem fbRead_writePixels_even (g : Int → Int → Colour) (r : Nat) :
    ∀ (qs : List (Int × Int)) (fb : Memory),
      fbRead (writePixels .m8x8 g qs fb) (2 * r + 2) = fbRead fb (2 * r + 2)
  | [], _ => rfl
  | q :: qs, fb => by
    rw [writePixels, fbRead_writePixels_even g r qs]
    cases hd : inDomain .m8x8 q.1 q.2 with
    | false => rw [pixelWrite_out _ _ hd]; rfl
    | true =>
      rw [pixelWrite_in _ _ hd, Option.getD_some, if_neg (by decide), fbRead_writeBit, if_neg]
      rintro ⟨h, -⟩
      simp only [locPos] at h
      omega

theorem fbRead_writeGrid_even (g : Int → Int → Colour) (fb : Memory) (r : Nat) :
    fbRead (writeGrid .m8x8 g fb) (2 * r + 2) = fbRead fb (2 * r + 2) := fbRead_writePixels_even g r _ fb

/-! ### FB from its pixels -/

/-- Two buffers whose in-domain pixels read alike, and, on M8X8, whose even positions are alike, have the same bytes
(R99, R100). -/
theorem fbRead_eq_of_pixels {t : Topology} {m m' : Memory}
    (h : ∀ x y, inDomain t x y = true → pixelRead t m x y = pixelRead t m' x y)
    (he : t = .m8x8 → ∀ r, fbRead m (2 * r + 2) = fbRead m' (2 * r + 2)) (k : Nat) : fbRead m k = fbRead m' k := by
  by_cases hk : 1 ≤ k ∧ k ≤ 16
  swap
  · rw [fbRead_out m hk, fbRead_out m' hk]
  apply byte_ext
  intro b hb
  have bitOf : ∀ x y : Int, inDomain t x y = true → ∀ p, (t ≠ .m8x8x2 → p = .a) → locPos t x y p = k → locBit t x y = b →
      (fbRead m k).getLsbD b = (fbRead m' k).getLsbD b := by
    intro x y hd p hp hpos hbit
    have := h x y hd
    rw [pixelRead_in m hd, pixelRead_in m' hd, Option.some.injEq] at this
    have := colourOf_injective this
    by_cases ht : t = .m8x8x2
    · simp only [ht, decide_true, Bool.true_and, if_true] at this hpos hbit
      cases p
      · simpa [hpos, hbit] using this.1
      · simpa [hpos, hbit] using this.2
    · have hpa := hp ht
      subst hpa
      simpa [ht, hpos, hbit] using this.2
  obtain ⟨r, hr, hkr⟩ : ∃ r : Nat, r < 8 ∧ (k = 2 * r + 1 ∨ k = 2 * r + 2) := ⟨(k - 1) / 2, by omega, by omega⟩
  cases t with
  | m8x8 =>
    rcases hkr with hkr | hkr
    · refine bitOf (if b = 7 then 0 else (b : Int) + 1) r ?_ .a (fun _ => rfl) ?_ ?_
      · rw [inDomain_iff]; simp only [columns, rows_eq]; split <;> omega
      · simp only [locPos]; omega
      · simp only [locBit]; split <;> split at * <;> omega
    · rw [hkr, he rfl r]
  | m16x8c =>
    rcases hkr with hkr | hkr
    · refine bitOf r b ?_ .a (fun _ => rfl) ?_ ?_
      · rw [inDomain_iff]; simp only [columns, rows_eq]; omega
      · simp only [locPos]; split <;> omega
      · simp only [locBit]; omega
    · refine bitOf (r + 8) b ?_ .a (fun _ => rfl) ?_ ?_
      · rw [inDomain_iff]; simp only [columns, rows_eq]; omega
      · simp only [locPos]; split <;> omega
      · simp only [locBit]; omega
  | m16x8d =>
    rcases hkr with hkr | hkr
    · refine bitOf r b ?_ .a (fun _ => rfl) ?_ ?_
      · rw [inDomain_iff]; simp only [columns, rows_eq]; omega
      · simp only [locPos]; split <;> omega
      · simp only [locBit]; omega
    · refine bitOf (r + 8) b ?_ .a (fun _ => rfl) ?_ ?_
      · rw [inDomain_iff]; simp only [columns, rows_eq]; omega
      · simp only [locPos]; split <;> omega
      · simp only [locBit]; omega
  | m8x8x2 =>
    rcases hkr with hkr | hkr
    · refine bitOf r b ?_ .a (fun _ => rfl) ?_ ?_
      · rw [inDomain_iff]; simp only [columns, rows_eq]; omega
      · simp [locPos]; omega
      · simp only [locBit]; omega
    · refine bitOf r b ?_ .b (by simp) ?_ ?_
      · rw [inDomain_iff]; simp only [columns, rows_eq]; omega
      · simp [locPos]; omega
      · simp only [locBit]; omega

/-! ### Filling -/

theorem fbRead_fillAll (b : Byte) (fb : Memory) (k : Nat) :
    fbRead (fillAll b fb) k = if 1 ≤ k ∧ k ≤ 16 then b else 0x00#8 := by
  by_cases hk : 1 ≤ k ∧ k ≤ 16
  · have hr : List.range 16 = [0, 1, 2, 3, 4, 5, 6, 7, 8, 9, 10, 11, 12, 13, 14, 15] := rfl
    simp only [fillAll, hr, List.foldl_cons, List.foldl_nil, fbRead_fbWrite]
    obtain ⟨h1, h2⟩ := hk
    interval_cases k <;> simp
  · rw [fbRead_out _ hk, if_neg hk]

theorem fbRead_fillPlanes (a b : Byte) (fb : Memory) (k : Nat) :
    fbRead (fillPlanes a b fb) k = if 1 ≤ k ∧ k ≤ 16 then (if k % 2 = 1 then a else b) else 0x00#8 := by
  by_cases hk : 1 ≤ k ∧ k ≤ 16
  · have hr : List.range 8 = [0, 1, 2, 3, 4, 5, 6, 7] := rfl
    simp only [fillPlanes, hr, List.foldl_cons, List.foldl_nil, fbRead_fbWrite]
    obtain ⟨h1, h2⟩ := hk
    interval_cases k <;> simp
  · rw [fbRead_out _ hk, if_neg hk]

theorem fillAll_wf (b : Byte) {fb : Memory} (h : Memory.wf fb = true) : Memory.wf (fillAll b fb) = true :=
  Memory.wf_foldl _ (fun _ _ hm => fbWrite_wf _ _ hm) _ _ h

theorem fillPlanes_wf (a b : Byte) {fb : Memory} (h : Memory.wf fb = true) : Memory.wf (fillPlanes a b fb) = true :=
  Memory.wf_foldl _ (fun _ _ hm => fbWrite_wf _ _ (fbWrite_wf _ _ hm)) _ _ h

theorem fillMemory_wf (t : Topology) (c : Colour) {fb : Memory} (h : Memory.wf fb = true) :
    Memory.wf (fillMemory t c fb) = true := by
  unfold fillMemory
  split
  · exact fillPlanes_wf _ _ h
  · exact fillAll_wf _ h

end Sys2Proof.Machine
end

