-- ==== Sys2Proof/Laws/Shift.lean ====
section
/-! SUPPORT. The shift engine: what a pixel reads as after one unit shift, and what a run of unit shifts is
(spec/42_shift.md R131 to R140). -/

namespace Sys2Proof.Machine

open Sys2Proof

theorem pixelRead_eq_gridOf {t : Topology} {x y : Int} {fb : Memory} (h : inDomain t x y = true) :
    pixelRead t fb x y = some (gridOf t fb x y) := by
  simp [gridOf, pixelRead_in fb h]

theorem gridOf_out {t : Topology} {x y : Int} {fb : Memory} (h : inDomain t x y = false) :
    gridOf t fb x y = Colour.off := by
  simp [gridOf, pixelRead_out _ h]

theorem storedColour_off (t : Topology) : storedColour t Colour.off = Colour.off := by
  unfold storedColour
  split <;> rfl

/-- A colour read from the buffer is stored unchanged. -/
theorem storedColour_gridOf (t : Topology) (fb : Memory) (x y : Int) : storedColour t (gridOf t fb x y) = gridOf t fb x y := by
  cases hd : inDomain t x y with
  | false => rw [gridOf_out hd, storedColour_off]
  | true =>
    unfold storedColour gridOf
    split
    · rfl
    · next ht =>
      simp only [pixelRead_in _ hd, ht, decide_false, Bool.false_and, Option.getD_some]
      generalize fbBit _ _ _ = b
      revert b; decide

theorem storedColour_shiftedGrid (t : Topology) (d : Direction) (wrap : Bool) (fb : Memory) (x y : Int) :
    storedColour t (shiftedGrid t d wrap (gridOf t fb) x y) = shiftedGrid t d wrap (gridOf t fb) x y := by
  cases d <;> simp only [shiftedGrid] <;> split <;> (try exact storedColour_gridOf t fb _ _) <;> split <;>
    first
    | exact storedColour_gridOf t fb _ _
    | exact storedColour_off t

/-- A pixel after a unit shift is the shifted grid's (R131). -/
theorem gridOf_unitShift {t : Topology} (d : Direction) (wrap : Bool) (fb : Memory) {x y : Int} (h : inDomain t x y = true) :
    gridOf t (unitShift t wrap fb d) x y = shiftedGrid t d wrap (gridOf t fb) x y := by
  rw [gridOf, unitShift, pixelRead_writeGrid _ _ h, Option.getD_some, storedColour_shiftedGrid]

theorem unitShift_wf (t : Topology) (wrap : Bool) (d : Direction) {fb : Memory} (h : Memory.wf fb = true) :
    Memory.wf (unitShift t wrap fb d) = true := writeGrid_wf t _ h

/-- On M8X8 a unit shift leaves the even positions (R45, R141). -/
theorem fbRead_unitShift_even (wrap : Bool) (d : Direction) (fb : Memory) (r : Nat) :
    fbRead (unitShift .m8x8 wrap fb d) (2 * r + 2) = fbRead fb (2 * r + 2) := fbRead_writeGrid_even _ fb r

/-! ### Runs -/

theorem unitShifts_length (dx dy : Int) : (unitShifts dx dy).length = dx.natAbs + dy.natAbs := by simp [unitShifts]

theorem afterChoice_cases (s : State) (last : Bool) : afterChoice s last = s ∨ afterChoice s last = s.withDraw := by
  unfold afterChoice
  split <;> simp

/-- What the first unit shift of a run does: FB is shifted, the counter may have moved, and either its frame is left out (never after
the last unit shift) or its flush decides how the command goes on. -/
theorem runUnitShifts_cons (wrap : Bool) (d : Direction) (ds : List Direction) (s : State) :
    ∃ q, (ds ≠ [] ∧ runUnitShifts wrap (d :: ds) s =
          runUnitShifts wrap ds { s with fb := unitShift s.topo wrap s.fb d, draws := q }) ∨
      runUnitShifts wrap (d :: ds) s =
        ({ s with fb := unitShift s.topo wrap s.fb d, draws := q } : State).flushThen fun s1 => runUnitShifts wrap ds s1 := by
  rw [runUnitShifts]
  obtain ⟨q, hq⟩ : ∃ q, afterChoice (s.withFb (unitShift s.topo wrap s.fb d)) ds.isEmpty =
      { s with fb := unitShift s.topo wrap s.fb d, draws := q } := by
    rcases afterChoice_cases (s.withFb (unitShift s.topo wrap s.fb d)) ds.isEmpty with h | h
    · exact ⟨s.draws, h⟩
    · exact ⟨s.draws + 1, h⟩
  refine ⟨q, ?_⟩
  simp only [hq]
  split
  · next ho => exact .inl ⟨by rintro rfl; simp [omitsFrameNow] at ho, rfl⟩
  · exact .inr rfl

/-- The last unit shift of a command is never without its frame (R139). -/
theorem runUnitShifts_single (wrap : Bool) (d : Direction) (s : State) :
    runUnitShifts wrap [d] s = (s.withFb (unitShift s.topo wrap s.fb d)).flushAndComplete := by
  simp [runUnitShifts, omitsFrameNow, afterChoice, State.flushAndComplete]

/-- With `exact`, every unit shift is followed by its frame (R138). -/
theorem runUnitShifts_exact (wrap : Bool) (d : Direction) (ds : List Direction) {s : State} (h : s.coalescing = .exactFrames) :
    runUnitShifts wrap (d :: ds) s =
      (s.withFb (unitShift s.topo wrap s.fb d)).flushThen fun s1 => runUnitShifts wrap ds s1 := by
  simp [runUnitShifts, omitsFrameNow, afterChoice, h]

end Sys2Proof.Machine
end

