-- ==== Sys2Proof/Laws/Exec.lean ====
section
/-! SUPPORT. What an instruction can do at all, said once: every meaning is a sequence of the named updates of
Machine/Ops.lean, so a property that those keep is kept by exec. -/

namespace Sys2Proof.Machine

open Sys2Proof

/-- A property of states that every named update keeps; a buffer is replaced only by one in canonical form again, and
RESP is written only with a word of R67. -/
structure Kept (P : State → Prop) : Prop where
  fb : ∀ s m, (Memory.wf s.fb = true → Memory.wf m = true) → P s → P (s.withFb m)
  blink : ∀ s r, P s → P (s.withBlink r)
  bright : ∀ s l, P s → P (s.withBright l)
  resp : ∀ s r, LawfulResp r → P s → P (s.withResp r)
  draw : ∀ s, P s → P s.withDraw
  bus : ∀ s msg, P s → P (s.afterBusWrite msg)

theorem lawful_nothing : LawfulResp respNothing := .inl respNothing_eq

theorem lawful_present (p1 p0 : Byte) : LawfulResp (respPresent p1 p0) :=
  .inr (.inl ⟨p1.toNat, p0.toNat, p1.isLt, p0.isLt, respPresent_eq p1 p0⟩)

theorem lawful_raised : ∀ r, LawfulResp (respRaised r)
  | .illegalCommand => .inr (.inr (.inl respRaised_illegal))
  | .dimensionMismatch => .inr (.inr (.inr (.inl respRaised_dimension)))
  | .transportError e => .inr (.inr (.inr (.inr ⟨e, respRaised_transport e⟩)))

variable {P : State → Prop}

theorem Kept.complete (k : Kept P) {s : State} (h : P s) : P s.complete := k.resp _ _ lawful_nothing h

theorem Kept.present (k : Kept P) {s : State} (p1 p0 : Byte) (h : P s) : P (s.present p1 p0) := k.resp _ _ (lawful_present p1 p0) h

theorem Kept.raise (k : Kept P) {s : State} (r : Raised) (h : P s) : P (s.raise r) := k.resp _ _ (lawful_raised r) h

theorem Kept.send (k : Kept P) {s : State} (msg : BusMsg) {goOn : State → State} (hg : ∀ s, P s → P (goOn s)) (h : P s) :
    P (s.send msg goOn) := by
  rcases send_eq s msg goOn with ⟨-, he⟩ | ⟨e, -, he⟩
  · rw [he]; exact hg _ (k.bus _ _ h)
  · rw [he]; exact k.raise _ (k.bus _ _ h)

theorem Kept.flushAndComplete (k : Kept P) {s : State} (h : P s) : P s.flushAndComplete :=
  k.send _ (fun _ => k.complete) h

theorem Kept.runUnitShifts (k : Kept P) (wrap : Bool) :
    ∀ (ds : List Direction) (s : State), P s → P (Machine.runUnitShifts wrap ds s)
  | [], _, h => k.complete h
  | d :: ds, s, h => by
    have hm := k.fb s _ (unitShift_wf s.topo wrap d) h
    have hc : P (afterChoice (s.withFb (unitShift s.topo wrap s.fb d)) ds.isEmpty) := by
      rcases afterChoice_cases (s.withFb (unitShift s.topo wrap s.fb d)) ds.isEmpty with he | he
      · rw [he]; exact hm
      · rw [he]; exact k.draw _ hm
    rw [Machine.runUnitShifts]
    split
    · exact k.runUnitShifts wrap ds _ hc
    · exact k.send _ (k.runUnitShifts wrap ds) hc

theorem Kept.setpTwoFrames (k : Kept P) (la lb : BitLoc) (c : Colour) {s : State} (h : P s) : P (Machine.setpTwoFrames la lb c s) :=
  k.send _ (fun _ h1 => k.flushAndComplete (k.fb _ _ (writeBit_wf _ _ _) h1)) (k.fb _ _ (writeBit_wf _ _ _) h)

theorem Kept.setpOneFrame (k : Kept P) (x y : Int) (c : Colour) {s : State} (h : P s) : P (Machine.setpOneFrame x y c s) := by
  unfold Machine.setpOneFrame
  split
  · next m hm => exact k.flushAndComplete (k.fb _ _ (fun hw => pixelWrite_wf hw hm) h)
  · exact k.complete h

/-- Every instruction answers a next state, and keeps what every named update keeps. -/
theorem Kept.exec (k : Kept P) (i : Instr) (s : State) : ∃ t, Machine.exec i s = .next t ∧ (P s → P t) := by
  cases i with
  | map x y p =>
    refine ⟨_, rfl, fun h => ?_⟩
    split
    · split
      · exact k.complete h
      · exact k.present _ _ h
    · exact k.raise _ h
  | getp x y =>
    refine ⟨_, rfl, fun h => ?_⟩
    split
    · exact k.complete h
    · exact k.present _ _ h
  | setp x y c =>
    refine ⟨_, rfl, fun h => ?_⟩
    split
    · split
      · split
        · exact k.setpTwoFrames _ _ _ h
        · exact k.complete h
      · exact k.setpOneFrame _ _ _ h
    · exact k.raise _ h
  | fill c =>
    refine ⟨_, rfl, fun h => ?_⟩
    split
    · exact k.flushAndComplete (k.fb _ _ (fillMemory_wf _ _) h)
    · exact k.raise _ h
  | loadimg w h' =>
    refine ⟨_, rfl, fun h => ?_⟩
    split
    · exact k.flushAndComplete (k.fb _ _ (writeGrid_wf _ _) h)
    · exact k.raise _ h
  | shift dx dy wrap => exact ⟨_, rfl, k.runUnitShifts wrap _ _⟩
  | rdbit b m =>
    refine ⟨_, rfl, fun h => ?_⟩
    split
    · exact k.present _ _ h
    · exact k.raise _ h
  | wrbit b m v =>
    refine ⟨_, rfl, fun h => ?_⟩
    split
    · exact k.flushAndComplete (k.fb _ _ (writeBit_wf _ _ _) h)
    · exact k.raise _ h
  | fillraw b =>
    refine ⟨_, rfl, fun h => ?_⟩
    split
    · exact k.complete (k.fb _ _ (fillAll_wf _) h)
    · exact k.raise _ h
  | flush => exact ⟨_, rfl, k.flushAndComplete⟩
  | init =>
    refine ⟨_, rfl, fun h => ?_⟩
    exact k.send _ (fun _ h1 => k.send _ (fun _ h2 => k.send _ (fun _ => k.complete) (k.bright _ _ h2)) (k.blink _ _ h1)) h
  | blink rate => exact ⟨_, rfl, fun h => k.send _ (fun _ => k.complete) (k.blink _ _ h)⟩
  | bright level => exact ⟨_, rfl, fun h => k.send _ (fun _ => k.complete) (k.bright _ _ h)⟩
  | oscOn => exact ⟨_, rfl, k.bus _ _⟩
  | blinkCmd rate => exact ⟨_, rfl, k.bus _ _⟩
  | brightCmd level => exact ⟨_, rfl, k.bus _ _⟩
  | frame data => exact ⟨_, rfl, k.bus _ _⟩

/-- What a step can answer: it waits, it is exec after the request is accepted, it refuses a word, or it stops on
bus-side bytes of no shape. -/
theorem step_cases (s : State) :
    step s = .next s ∨
      (∃ w src later i, step s = Machine.exec i (s.accept w src later)) ∨
      (∃ w src later, step s = .next ((s.accept w src later).raise .illegalCommand)) ∨
      (∃ later i, step s = Machine.exec i (s.acceptBusSide later)) ∨
      step s = .fault .notABusWrite := by
  unfold step
  cases s.port with
  | nil => exact .inl rfl
  | cons r later =>
    simp only
    cases r.code with
    | word w =>
      simp only [runWord, State.accept]
      cases decodeWord w with
      | ok i => exact .inr (.inl ⟨w, r.src, later, i, rfl⟩)
      | error e => exact .inr (.inr (.inl ⟨w, r.src, later, rfl⟩))
    | bytes bs =>
      simp only [runBusSide]
      cases decodeBus bs with
      | ok i => exact .inr (.inr (.inr (.inl ⟨later, i, rfl⟩)))
      | error e => exact .inr (.inr (.inr (.inr rfl)))

/-- A run goes on from the next state of its first step. -/
theorem run_next {n : Nat} {s t : State} (h : step s = .next t) :
    Host.Core.run Sys2Proof.core (n + 1) s = Host.Core.run Sys2Proof.core n t := by
  have h' : Sys2Proof.core.step s = .next t := h
  simp only [Host.Core.run, h']

end Sys2Proof.Machine
end

