-- ==== Sys2Proof/Laws/PerInstr.lean ====
section
/-! SUPPORT. Statements made per instruction. EncodeLength: how long the code of an instruction is: a host command is
one 32-bit word (spec/30_encoding.md R60), a bus-side row one byte or, for the frame, seventeen (R70 to R74). -/

namespace Sys2Proof.Laws.EncodeLength

open Sys2Proof Sys2Proof.Machine

/-- The length of a code in bytes; a command word has four. -/
def codeLength : Code → Nat
  | .word _ => 4
  | .bytes bs => bs.length

/-- The code's length and form, and the length the decoder tells the rows apart by. -/
def Statement (i : Instr) : Prop :=
  codeLength (encode i) = (if isCommand i then 4 else if ∃ data, i = .frame data then 17 else 1) ∧
    ((∃ w, encode i = .word w) ↔ isCommand i = true)

theorem map (x y : Int) (p : Plane) : Statement (.map x y p) := by simp [Statement, encode, codeLength, isCommand]

theorem getp (x y : Int) : Statement (.getp x y) := by simp [Statement, encode, codeLength, isCommand]

theorem setp (x y : Int) (c : Colour) : Statement (.setp x y c) := by simp [Statement, encode, codeLength, isCommand]

theorem fill (c : Colour) : Statement (.fill c) := by simp [Statement, encode, codeLength, isCommand]

theorem loadimg (w h : Nat) : Statement (.loadimg w h) := by simp [Statement, encode, codeLength, isCommand]

theorem shift (dx dy : Int) (wrap : Bool) : Statement (.shift dx dy wrap) := by simp [Statement, encode, codeLength, isCommand]

theorem rdbit (i : Nat) (m : Byte) : Statement (.rdbit i m) := by simp [Statement, encode, codeLength, isCommand]

theorem wrbit (i : Nat) (m : Byte) (v : Bool) : Statement (.wrbit i m v) := by simp [Statement, encode, codeLength, isCommand]

theorem fillraw (b : Byte) : Statement (.fillraw b) := by simp [Statement, encode, codeLength, isCommand]

theorem flush : Statement .flush := by simp [Statement, encode, codeLength, isCommand]

theorem init : Statement .init := by simp [Statement, encode, codeLength, isCommand]

theorem blink (rate : Byte) : Statement (.blink rate) := by simp [Statement, encode, codeLength, isCommand]

theorem bright (level : Byte) : Statement (.bright level) := by simp [Statement, encode, codeLength, isCommand]

theorem oscOn : Statement .oscOn := by simp [Statement, encode, codeLength, isCommand]

theorem blinkCmd (rate : BitVec 2) : Statement (.blinkCmd rate) := by simp [Statement, encode, codeLength, isCommand]

theorem brightCmd (level : BitVec 4) : Statement (.brightCmd level) := by simp [Statement, encode, codeLength, isCommand]

theorem frame (data : FrameData) : Statement (.frame data) := by simp [Statement, encode, codeLength, isCommand, frameBytes]

end Sys2Proof.Laws.EncodeLength
end

