-- ==== Sys2Proof/Tests/Slice0.lean ====
section
/-! SUPPORT. Tests of one step each; every expected value is written out in spec/95_test_vectors.md, in the section the
comment names, or, where it says so, from the rule it names. -/

namespace Sys2Proof.Tests

open Sys2Proof Sys2Proof.Machine

-- one test after another: the kernel evaluates each, and a thread held for every test at once is too much memory
set_option Elab.async false

/-! ### Helpers -/

/-- Sixteen data bytes as a buffer, FB[1] first. -/
def buffer (bs : List Byte) : Memory := Memory.ofData (Vector.ofFn fun k => bs.getD k.val 0x00#8)

/-- The sixteen data bytes of a state. -/
def bytesOf (s : State) : List Byte := (List.range 16).map fun k => fbRead s.fb (k + 1)

/-- The state after reset with another topology and buffer. -/
def start (t : Topology) (bs : List Byte) : State := { State.reset with topo := t, fb := buffer bs }

/-- The state after one step on a command word, if there is one. -/
def ran (s : State) (w : Word) : Option State :=
  match step (s.presented (.word w)) with
  | .next t => some t
  | .fault _ => none
  | .refused _ => none

/-- RESP, the data bytes and the number of frames after one step on a command word. -/
def seen (s : State) (w : Word) : Option (Word × List Byte × Nat) :=
  (ran s w).map fun t => (t.resp, bytesOf t, t.bus.length)

/-- RESP alone. -/
def respOf (s : State) (w : Word) : Option Word := (ran s w).map State.resp

/-- A sink that fails at its second answer. -/
def failsSecond (e : BitVec 16) : Sink := { script := [.ok, .err e], rest := .ok }

/-- A sink that always fails. -/
def failsAlways (e : BitVec 16) : Sink := { script := [], rest := .err e }

def zeros : List Byte := List.replicate 16 0x00#8

/-! ### WellFormed refuses an ill-formed term, one for each check (R63) -/

theorem test_wf_map_x : (Instr.map 128 0 .a).wf = false := by decide
theorem test_wf_map_y : (Instr.map 0 (-129) .a).wf = false := by decide
theorem test_wf_getp_x : (Instr.getp (-129) 0).wf = false := by decide
theorem test_wf_getp_y : (Instr.getp 0 128).wf = false := by decide
theorem test_wf_setp_x : (Instr.setp 128 0 1#2).wf = false := by decide
theorem test_wf_setp_y : (Instr.setp 0 (-129) 1#2).wf = false := by decide
theorem test_wf_loadimg_w : (Instr.loadimg 256 8).wf = false := by decide
theorem test_wf_loadimg_h : (Instr.loadimg 8 256).wf = false := by decide
theorem test_wf_shift_dx : (Instr.shift (-129) 0 false).wf = false := by decide
theorem test_wf_shift_dy : (Instr.shift 0 128 true).wf = false := by decide
theorem test_wf_rdbit_i : (Instr.rdbit 256 0xFF#8).wf = false := by decide
theorem test_wf_wrbit_i : (Instr.wrbit 256 0x01#8 true).wf = false := by decide

/-! ### Decoding: words written out bit by bit (section 3.1; R60 to R63, R70 to R73) -/

theorem test_decode_map : decodeWord 0b0001_000000000_0_01_00000101_00000011#32 = .ok (.map 3 5 .b) := by decide
theorem test_decode_getp : decodeWord 0b0010_000000000_0_00_00000000_11111111#32 = .ok (.getp (-1) 0) := by decide
theorem test_decode_setp : decodeWord 0b0011_000000000_0_10_00000000_00000000#32 = .ok (.setp 0 0 Colour.red) := by decide
theorem test_decode_fill : decodeWord 0b0100_000000000_0_11_00000000_00000000#32 = .ok (.fill Colour.yellow) := by decide
theorem test_decode_loadimg : decodeWord 0b0101_000000000_0_00_00001000_00010000#32 = .ok (.loadimg 16 8) := by decide
theorem test_decode_shift : decodeWord 0b0110_000000000_1_00_00000010_11111111#32 = .ok (.shift (-1) 2 true) := by decide
theorem test_decode_shift_min : decodeWord 0b0110_000000000_0_00_00000000_10000000#32 = .ok (.shift (-128) 0 false) := by decide
theorem test_decode_rdbit : decodeWord 0b1000_000000000_0_00_00000011_10000000#32 = .ok (.rdbit 3 0x80#8) := by decide
theorem test_decode_wrbit : decodeWord 0b1001_000000000_0_01_00000010_00000001#32 = .ok (.wrbit 2 0x01#8 true) := by decide
theorem test_decode_fillraw : decodeWord 0b1010_000000000_0_00_00000000_11111111#32 = .ok (.fillraw 0xFF#8) := by decide
theorem test_decode_flush : decodeWord 0b1011_000000000_0_00_00000000_00000000#32 = .ok .flush := by decide
theorem test_decode_init : decodeWord 0b1100_000000000_0_00_00000000_00000000#32 = .ok .init := by decide
theorem test_decode_blink : decodeWord 0b1101_000000000_0_00_00000000_00000010#32 = .ok (.blink 2#8) := by decide
theorem test_decode_bright : decodeWord 0b1110_000000000_0_00_00000000_00000111#32 = .ok (.bright 7#8) := by decide
theorem test_decode_oscOn : decodeBus [0b0010_0001#8] = .ok .oscOn := by decide
theorem test_decode_blinkCmd : decodeBus [0b10000_10_1#8] = .ok (.blinkCmd 2#2) := by decide
theorem test_decode_brightCmd : decodeBus [0b1110_0111#8] = .ok (.brightCmd 7#4) := by decide
theorem test_decode_frame : decodeBus (0x00#8 :: List.replicate 16 0x5A#8) = .ok (.frame (Vector.replicate 16 0x5A#8)) := by decide

/-- Words of section 3.8 that no row takes, each rejected by its name. -/
theorem test_decode_rejects :
    decodeWord 0x70000000#32 = .error .reservedOpcode ∧ decodeWord 0xFFFFFFFF#32 = .error .reservedOpcode ∧
      decodeWord 0x30080001#32 = .error .unusedFieldNotZero ∧ decodeWord 0x28000001#32 = .error .unusedFieldNotZero ∧
      decodeWord 0x10020000#32 = .error .unusedFieldNotZero ∧ decodeWord 0xD0000102#32 = .error .unusedFieldNotZero := by
  decide

/-- Bus-side bytes of no shape (R74), each rejected by its name. -/
theorem test_decode_bus_rejects :
    decodeBus [] = .error .badBusLength ∧ decodeBus [0x20#8] = .error .notABusByte ∧
      decodeBus [0x21#8, 0x81#8] = .error .badBusLength ∧
      decodeBus (0x02#8 :: zeros) = .error .frameRegisterNotZero := by decide

/-- The host's entry: a command word, and bus-side rows of 8 and 136 bits with their first byte in bits 7:0. -/
theorem test_decodeTableWord :
    decodeTableWord 32 0x60040010 = some (.shift 16 0 true) ∧ decodeTableWord 8 0x85 = some (.blinkCmd 2#2) ∧
      decodeTableWord 136 0x5A00 = some (.frame ((Vector.replicate 16 0x00#8).set 0 0x5A#8)) := by decide +kernel

/-- A step after withFetchWord on reset runs the row's instruction: BRIGHT 7, and the bus-side 0x21 on its own (R157, R70). -/
theorem test_withFetchWord :
    (match step (State.reset.withFetchWord 32 0xE0000007) with
      | .next t => some (t.bright, t.bus, t.port) | .fault _ => none | .refused _ => none) =
        some (7#4, [{ addr := 0x70#8, bytes := [0xE7#8], answer := .ok }], []) ∧
    (match step (State.reset.withFetchWord 8 0x21) with
      | .next t => some (t.resp, t.bus, t.port) | .fault _ => none | .refused _ => none) =
        some (0#32, [{ addr := 0x70#8, bytes := [0x21#8], answer := .ok }], []) := by decide +kernel

/-- Bus-side bytes of no shape stop the step by name (log 14). -/
theorem test_notABusWrite :
    (match step (State.reset.presented (.bytes [0x20#8])) with
      | .next _ => none | .fault f => some f | .refused _ => none) = some .notABusWrite := by decide +kernel

/-! ### One step of each command -/

/-- Section 3.2: the column rotation, the fold of the right half, the planes. -/
theorem test_map :
    respOf (start .m8x8 []) 0x10000000#32 = some 0x00010180#32 ∧ respOf (start .m8x8 []) 0x10000503#32 = some 0x00010B04#32 ∧
      respOf (start .m16x8c []) 0x1000070F#32 = some 0x00011080#32 ∧
      respOf (start .m16x8d []) 0x10000008#32 = some 0x00010201#32 ∧
      respOf (start .m8x8x2 []) 0x10010503#32 = some 0x00010820#32 := by decide +kernel

/-- Section 3.2: absent, and illegal on a monochrome topology. -/
theorem test_map_absent :
    respOf (start .m8x8 []) 0x100000FF#32 = some 0x00000000#32 ∧ respOf (start .m8x8 []) 0x10000008#32 = some 0x00000000#32 ∧
      respOf (start .m16x8c []) 0x10000800#32 = some 0x00000000#32 ∧
      respOf (start .m8x8 []) 0x10010000#32 = some 0x10000000#32 := by decide +kernel

/-- Section 3.3. -/
theorem test_getp :
    respOf (start .m8x8 (List.replicate 16 0xAA#8)) 0x20000000#32 = some 0x00010001#32 ∧
      respOf (start .m8x8 (List.replicate 16 0xAA#8)) 0x20000001#32 = some 0x00010000#32 ∧
      respOf (start .m8x8 (List.replicate 16 0xAA#8)) 0x20000008#32 = some 0x00000000#32 := by decide +kernel

/-- Section 3.3: SETP clears one bit, and SETP out of range has no frame. -/
theorem test_setp :
    seen (start .m8x8 (List.replicate 16 0xAA#8)) 0x30000302#32 =
        some (0x00000000#32, (List.replicate 16 0xAA#8).set 6 0xA8#8, 1) ∧
      seen (start .m8x8 (List.replicate 16 0xAA#8)) 0x30010308#32 =
        some (0x00000000#32, List.replicate 16 0xAA#8, 0) := by decide +kernel

/-- Section 3.3: two frames, and the first of them failing, with BICOLOR_SETP_FRAMES = 2. -/
theorem test_setp_two_frames :
    (ran { start .m8x8x2 (0x01#8 :: 0x01#8 :: []) with setpFrames := .two } 0x30020000#32).map
        (fun t => t.bus.map fun e => e.bytes.take 3) = some [[0x00#8, 0x01#8, 0x01#8], [0x00#8, 0x01#8, 0x00#8]] ∧
      seen { start .m8x8x2 [] with setpFrames := .two, sink := failsAlways 0x0002#16 } 0x30030000#32 =
        some (0x30000002#32, zeros.set 0 0x01#8, 1) := by decide +kernel

/-- Section 3.4. -/
theorem test_fill :
    seen (start .m8x8 (List.replicate 16 0x5A#8)) 0x40010000#32 = some (0x00000000#32, List.replicate 16 0xFF#8, 1) ∧
      seen (start .m8x8x2 (List.replicate 16 0x5A#8)) 0x40020000#32 =
        some (0x00000000#32, (List.replicate 8 [0xFF#8, 0x00#8]).flatten, 1) := by decide +kernel

/-- An 8 by 8 image from a function of column and row. -/
def imageOf (f : Nat → Nat → Colour) : Image := (List.range 8).map fun y => (List.range 8).map fun x => f x y

/-- Section 3.5: the diagonal on M8X8, even positions kept; the four colours on M8X8X2. -/
theorem test_loadimg :
    seen { start .m8x8 (List.replicate 16 0x11#8) with src := imageOf fun x y => if x = y then 1#2 else 0#2 } 0x50000808#32 =
        some (0x00000000#32, [0x80#8, 0x11#8, 0x01#8, 0x11#8, 0x02#8, 0x11#8, 0x04#8, 0x11#8,
          0x08#8, 0x11#8, 0x10#8, 0x11#8, 0x20#8, 0x11#8, 0x40#8, 0x11#8], 1) ∧
      seen { start .m8x8x2 [] with src := imageOf fun x y => BitVec.ofNat 2 (x + y) } 0x50000808#32 =
        some (0x00000000#32, [0xCC#8, 0xAA#8, 0x66#8, 0x55#8, 0x33#8, 0xAA#8, 0x99#8, 0x55#8,
          0xCC#8, 0xAA#8, 0x66#8, 0x55#8, 0x33#8, 0xAA#8, 0x99#8, 0x55#8], 1) := by decide +kernel

/-- Section 3.9: the dimension check comes first. -/
theorem test_loadimg_dimension :
    seen { start .m8x8 (List.replicate 16 0x11#8) with sink := failsAlways 0x0007#16 } 0x50000810#32 =
      some (0x20000000#32, List.replicate 16 0x11#8, 0) := by decide +kernel

/-- Section 3.6: SHIFT 2, -1, 1 on M8X8. -/
theorem test_shift_m8x8 :
    seen (start .m8x8 [0x81#8, 0xEE#8, 0x01#8, 0xEE#8, 0x80#8, 0xEE#8, 0x40#8, 0xEE#8,
        0x00#8, 0xEE#8, 0xFF#8, 0xEE#8, 0x3C#8, 0xEE#8, 0xA5#8, 0xEE#8]) 0x6004FF02#32 =
      some (0x00000000#32, [0x04#8, 0xEE#8, 0x02#8, 0xEE#8, 0x01#8, 0xEE#8, 0x00#8, 0xEE#8,
        0xFF#8, 0xEE#8, 0xF0#8, 0xEE#8, 0x96#8, 0xEE#8, 0x06#8, 0xEE#8], 3) := by decide +kernel

/-- Section 3.9: the second frame of SHIFT 3, 0, 0 fails: two unit shifts were made, the third was not. -/
theorem test_shift_fails :
    seen { start .m16x8c [0x01#8] with sink := failsSecond 0xBEEF#16 } 0x60000003#32 =
      some (0x3000BEEF#32, zeros.set 4 0x01#8, 2) := by decide +kernel

/-- Section 3.7. -/
theorem test_rdbit :
    respOf (start .m8x8 [0x00#8, 0x00#8, 0x82#8]) 0x80000383#32 = some 0x00010001#32 ∧
      respOf (start .m8x8 [0x00#8, 0x00#8, 0x82#8]) 0x80000300#32 = some 0x00010000#32 ∧
      respOf (start .m8x8 [0x00#8, 0x00#8, 0x82#8]) 0x800000FF#32 = some 0x10000000#32 ∧
      respOf (start .m8x8 [0x00#8, 0x00#8, 0x82#8]) 0x800011FF#32 = some 0x10000000#32 := by decide +kernel

/-- Section 3.7. -/
theorem test_wrbit :
    seen (start .m8x8 [0x00#8, 0x00#8, 0x82#8]) 0x9001030F#32 = some (0x00000000#32, zeros.set 2 0x8F#8, 1) ∧
      seen (start .m8x8 [0x00#8, 0x00#8, 0x8F#8]) 0x90000382#32 = some (0x00000000#32, zeros.set 2 0x0D#8, 1) := by
  decide +kernel

/-- Section 3.7: no frame. -/
theorem test_fillraw :
    seen (start .m8x8 []) 0xA00000FF#32 = some (0x00000000#32, List.replicate 16 0xFF#8, 0) ∧
      seen (start .m8x8 []) 0xA0000055#32 = some (0x10000000#32, zeros, 0) := by decide +kernel

/-- Section 3.7: the frame of FLUSH; DEV equals the buffer (R51). -/
theorem test_flush :
    (ran (start .m8x8 (List.replicate 16 0xFF#8)) 0xB0000000#32).map (fun t => (t.bus, t.dev)) =
      some ([{ addr := 0x70#8, bytes := 0x00#8 :: List.replicate 16 0xFF#8, answer := .ok }],
        .holds (Vector.replicate 16 0xFF#8)) := by decide +kernel

/-- Section 3.7, INIT. -/
theorem test_init :
    (ran (start .m8x8 []) 0xC0000000#32).map (fun t => (t.resp, t.blink, t.bright, t.bus.map BusEntry.bytes)) =
      some (0x00000000#32, 0#2, 15#4, [[0x21#8], [0x81#8], [0xEF#8]]) := by decide +kernel

/-- Section 3.9: the second write of INIT fails. -/
theorem test_init_fails :
    (ran { start .m8x8 [] with blink := 3#2, bright := 6#4, sink := failsSecond 0x0001#16 } 0xC0000000#32).map
        (fun t => (t.resp, t.blink, t.bright, t.bus.map BusEntry.bytes)) =
      some (0x30000001#32, 0#2, 6#4, [[0x21#8], [0x81#8]]) := by decide +kernel

/-- Section 3.7: the rate is masked to two bits. -/
theorem test_blink :
    (ran (start .m8x8 []) 0xD0000005#32).map (fun t => (t.resp, t.blink, t.bus.map BusEntry.bytes)) =
      some (0x00000000#32, 1#2, [[0x83#8]]) := by decide +kernel

/-- Section 3.7: the level is masked to four bits; section 3.9: stored although its write fails. -/
theorem test_bright :
    (ran (start .m8x8 []) 0xE0000010#32).map (fun t => (t.bright, t.bus.map BusEntry.bytes)) = some (0#4, [[0xE0#8]]) ∧
      (ran { start .m8x8 [] with sink := failsAlways 0x0003#16 } 0xE0000009#32).map
          (fun t => (t.resp, t.bright, t.bus.map BusEntry.bytes)) = some (0x30000003#32, 9#4, [[0xE9#8]]) := by
  decide +kernel

/-- Section 3.8: an illegal word changes RESP only. -/
theorem test_illegal_word :
    seen (start .m8x8 [0x5A#8]) 0xB0000001#32 = some (0x10000000#32, zeros.set 0 0x5A#8, 0) := by decide +kernel

/-- The state after a bus-side row's own step. -/
def busRow (s : State) (i : Instr) : Option (List (List Byte) × Word × Dev) :=
  match exec i s with
  | .next t => some (t.bus.map BusEntry.bytes, t.resp, t.dev)
  | .fault _ => none
  | .refused _ => none

/-- R70 to R72: the bytes 0x21, 0x85, 0xE7. -/
theorem test_bus_bytes :
    busRow State.reset .oscOn = some ([[0x21#8]], 0#32, .unknown) ∧
      busRow State.reset (.blinkCmd 2#2) = some ([[0x85#8]], 0#32, .unknown) ∧
      busRow State.reset (.brightCmd 7#4) = some ([[0xE7#8]], 0#32, .unknown) := by decide +kernel

/-- R73, R28: the frame loads the chip's display RAM. -/
theorem test_frame :
    busRow State.reset (.frame (Vector.replicate 16 0x5A#8)) =
      some ([0x00#8 :: List.replicate 16 0x5A#8], 0#32, .holds (Vector.replicate 16 0x5A#8)) := by decide +kernel

/-! ### Witnesses: for each obligation with hypotheses, a state and operands that meet them, each clause at the ends of
its range -/

/-- Fields at both ends of their range (R63). -/
theorem test_hyp_EncodedInstructionDecodesToItself :
    (Instr.map (-128) 127 .b).wf = true ∧ (Instr.getp 127 (-128)).wf = true ∧ (Instr.setp (-128) 127 3#2).wf = true ∧
      (Instr.fill 3#2).wf = true ∧ (Instr.loadimg 255 0).wf = true ∧ (Instr.shift (-128) 127 true).wf = true ∧
      (Instr.rdbit 255 0xFF#8).wf = true ∧ (Instr.wrbit 0 0x00#8 false).wf = true ∧ (Instr.frame (Vector.replicate 16 0xFF#8)).wf = true := by
  decide

theorem test_hyp_DecodedCodeIsItsEncoding :
    decode (.word 0x10018080#32) = .ok (.map (-128) (-128) .b) ∧ decode (.bytes [0xEF#8]) = .ok (.brightCmd 15#4) := by decide

/-- A word and a bus-side row, each ahead of another request. -/
theorem test_hyp_StepRunsTheDecodedInstruction :
    ((State.reset.presented (.word 0x00000000#32)).presented (.word 0xB0000000#32)).port = { code := .word 0xB0000000#32, src := [] } :: [{ code := .word 0x00000000#32, src := [] }] ∧
    decode (.word 0xB0000000#32) = .ok .flush ∧
    ((State.reset.presented (.word 0x00000000#32)).presented (.bytes [0x21#8])).port = { code := .bytes [0x21#8], src := [] } :: [{ code := .word 0x00000000#32, src := [] }] ∧
    decode (.bytes [0x21#8]) = .ok .oscOn := by decide +kernel

theorem test_hyp_IllegalWordOnlyWritesResp :
    (State.reset.presented (.word 0x70000000#32)).port = { code := .word 0x70000000#32, src := [] } :: [] ∧
      (∀ row ∈ commandRows, 0x70000000#32 &&& row.2 ≠ row.1) ∧ (∀ row ∈ commandRows, 0xB0000001#32 &&& row.2 ≠ row.1) :=
  ⟨rfl, by simp [commandRows], by simp [commandRows]⟩

/-- Each clause at the ends of its range: the three monochrome topologies, colours 2 and 3, positions 0 and 17, bytes 0x01
and 0xFE. -/
theorem test_hyp_FailedFurtherConditionOnlyWritesResp :
    State.reset.topo ≠ .m8x8x2 ∧ (start .m16x8c []).topo ≠ .m8x8x2 ∧ (start .m16x8d []).topo ≠ .m8x8x2 ∧
      2 ≤ Colour.red.toNat ∧ 2 ≤ Colour.yellow.toNat ∧ (0 = 0 ∨ 17 ≤ 0) ∧ (17 = 0 ∨ 17 ≤ 17) ∧
      ((0x01#8 : Byte) ≠ 0x00#8 ∧ (0x01#8 : Byte) ≠ 0xFF#8) ∧ ((0xFE#8 : Byte) ≠ 0x00#8 ∧ (0xFE#8 : Byte) ≠ 0xFF#8) := by
  decide +kernel

/-- The corners of each grid, for M8x8MappingRotatesTheColumn, ChainedMappingSwapsAxesAndFolds (both halves) and
DualAndBicolourMappings, with the table entries of sections 2.1 to 2.3. -/
theorem test_hyp_mappings :
    ((0 < 8 ∧ 0 < 8) ∧ mapPixel .m8x8 0 0 .a = some { pos := 1, mask := 0x80#8 }) ∧
    ((7 < 8 ∧ 7 < 8) ∧ mapPixel .m8x8 7 7 .b = some { pos := 15, mask := 0x40#8 }) ∧
    ((7 < 16 ∧ 7 < 8 ∧ 7 ≤ 7) ∧ mapPixel .m16x8c 7 7 .a = some { pos := 15, mask := 0x80#8 }) ∧
    ((8 < 16 ∧ 0 < 8 ∧ 8 ≤ 8) ∧ mapPixel .m16x8c 8 0 .a = some { pos := 2, mask := 0x01#8 }) ∧
    ((15 < 16 ∧ 7 < 8) ∧ mapPixel .m16x8d 15 7 .a = some { pos := 16, mask := 0x80#8 }) ∧
    ((7 < 8 ∧ 7 < 8) ∧ mapPixel .m8x8x2 7 7 .b = some { pos := 16, mask := 0x80#8 }) := by decide

/-- For MapperStaysInTheDataBytes, MapperIsInjective and MapperInverseTable: locations at both ends (sections 2.1 to 2.3). -/
theorem test_hyp_locations :
    mapPixel .m8x8 1 0 .a = some { pos := 1, mask := 0x01#8 } ∧ mapPixel .m8x8 0 7 .a = some { pos := 15, mask := 0x80#8 } ∧
      mapPixel .m16x8c 15 7 .b = some { pos := 16, mask := 0x80#8 } ∧
      mapPixel .m8x8x2 0 0 .b = some { pos := 2, mask := 0x01#8 } ∧ (0 < 8 ∧ 7 < 8) := by decide

theorem test_hyp_MapCommandReportsTheLocation :
    ((start .m8x8x2 []).topo = .m8x8x2 ∧ mapPixel .m8x8x2 8 0 .b = none ∧ mapPixel .m8x8x2 7 0 .b = some { pos := 16, mask := 0x01#8 }) ∧
    ((start .m8x8 []).topo ≠ .m8x8x2 ∧ mapPixel .m8x8 (-1) 0 .a = none ∧
      mapPixel .m8x8 0 0 .a = some { pos := 1, mask := 0x80#8 }) := by decide +kernel

theorem test_hyp_GetpReturnsThePixelColour :
    (pixelRead (start .m8x8 []).topo (buffer [0x80#8]) 8 0 = none ∧
      pixelRead (start .m8x8 []).topo (buffer [0x80#8]) 0 0 = some 1#2) ∧
    (pixelRead (start .m8x8x2 []).topo (buffer [0x01#8]) 0 8 = none ∧
      pixelRead (start .m8x8x2 []).topo (buffer [0x01#8]) 0 0 = some Colour.red) := by decide +kernel

/-- For PixelReadAssemblesTheMappedBits and PixelWriteStoresOnlyThePixelBits: one location, and two on M8X8X2; out of the
domain nothing is written. -/
theorem test_hyp_pixel_locations :
    (Topology.m16x8d ≠ .m8x8x2 ∧ mapPixel .m16x8d 8 7 .a = some { pos := 2, mask := 0x80#8 } ∧
      (pixelWrite .m16x8d [] 8 7 1#2).isSome = true) ∧
    (mapPixel .m8x8x2 7 0 .a = some { pos := 15, mask := 0x01#8 } ∧ mapPixel .m8x8x2 7 0 .b = some { pos := 16, mask := 0x01#8 } ∧
      (pixelWrite .m8x8x2 [] 7 0 3#2).isSome = true) ∧
    pixelWrite .m8x8 [] 8 0 1#2 = none := by decide

theorem test_hyp_SetpWritesThePixelAndSendsOneFrame :
    ((start .m8x8 []).topo ≠ .m8x8x2 ∧ Colour.red.getLsbD 1 = true) ∧
    ((start .m8x8x2 []).topo = .m8x8x2 ∧ (start .m8x8x2 []).setpFrames = .one ∧
      (pixelWrite .m8x8x2 (start .m8x8x2 []).fb 7 7 3#2).isSome = true ∧ pixelWrite .m8x8x2 (start .m8x8x2 []).fb 8 7 3#2 = none) ∧
    ((start .m16x8c []).topo ≠ .m8x8x2 ∧ (1#2 : Colour).getLsbD 1 = false ∧
      (pixelWrite .m16x8c (start .m16x8c []).fb 15 7 1#2).isSome = true ∧ pixelWrite .m16x8c (start .m16x8c []).fb 16 7 1#2 = none) := by decide +kernel

/-- M8X8X2 with a frame after each plane, and a sink. -/
def twoFrames (k : Sink) : State := { start .m8x8x2 [] with setpFrames := .two, sink := k }

theorem test_hyp_SetpSendsAFrameAfterEachPlane :
    (∀ k, (twoFrames k).topo = .m8x8x2 ∧ (twoFrames k).setpFrames = .two ∧ (twoFrames k).sink = k) ∧
    sinkAnswer State.reset.sink = .ok ∧ sinkAnswer (failsAlways 0x0002#16) = .err 0x0002#16 ∧
    mapPixel .m8x8x2 0 0 .a = some { pos := 1, mask := 0x01#8 } ∧ mapPixel .m8x8x2 0 0 .b = some { pos := 2, mask := 0x01#8 } :=
  ⟨fun _ => ⟨rfl, rfl, rfl⟩, by decide +kernel⟩

/-- For SetpThenGetpReturnsTheColour and SetpKeepsEveryOtherPixel: in the domain, a legal colour, one frame; and another pixel. -/
theorem test_hyp_setp_and_getp :
    mapPixel (start .m8x8x2 []).topo 7 7 .a ≠ none ∧ (start .m8x8x2 []).topo = .m8x8x2 ∧ (start .m8x8x2 []).setpFrames = .one ∧
      mapPixel (start .m8x8 []).topo 0 0 .a ≠ none ∧ (1#2 : Colour).getLsbD 1 = false ∧ (start .m8x8 []).topo ≠ .m8x8x2 ∧
      ((1, 0) : Int × Int) ≠ (0, 0) := by decide +kernel

/-- With two frames, a SETP that was completed. -/
theorem test_hyp_setp_and_getp_two_frames :
    (ran (twoFrames State.reset.sink) 0x30030000#32).map State.resp = some 0x00000000#32 := by decide +kernel

/-- For FillStoresEveryDataByte (both clauses) and FilledPixelsReadBack. -/
theorem test_hyp_fill :
    ((start .m16x8d []).topo ≠ .m8x8x2 ∧ Colour.yellow.getLsbD 1 = true) ∧ (start .m8x8x2 []).topo = .m8x8x2 ∧
      ((1#2 : Colour).getLsbD 1 = false ∧ mapPixel (start .m16x8d []).topo 15 7 .a ≠ none) := by decide +kernel

/-- For LoadimgStoresEverySample and WrongSizeLoadimgOnlyWritesResp: the right size and its neighbours. -/
theorem test_hyp_loadimg :
    16 = (if (start .m16x8c []).topo = .m16x8c ∨ (start .m16x8c []).topo = .m16x8d then 16 else 8) ∧
      8 = (if (start .m8x8 []).topo = .m16x8c ∨ (start .m8x8 []).topo = .m16x8d then 16 else 8) ∧
      9 ≠ (if (start .m8x8x2 []).topo = .m16x8c ∨ (start .m8x8x2 []).topo = .m16x8d then 16 else 8) ∧ 7 ≠ 8 ∧
      mapPixel (start .m8x8 []).topo 7 7 .a ≠ none := by decide +kernel

/-- For the unit shifts and their byte forms: the first and last column and row. -/
theorem test_hyp_unit_shifts :
    (0 < columns .m8x8 ∧ 0 < rows .m8x8) ∧ (7 < columns .m8x8x2 ∧ 7 < rows .m8x8x2) ∧ (15 < columns .m16x8c ∧ 7 < rows .m16x8c) ∧
      (0 < 8 ∧ 7 < 8) := by decide

/-- For the SHIFT statements with every answer ok, with `exact` and with `coalesced`, at the ends of the operands' range. -/
theorem test_hyp_shift_ok :
    State.reset.coalescing = .exactFrames ∧ AllOk State.reset.sink ∧
      ({ State.reset with coalescing := .coalesced } : State).coalescing = .coalesced ∧ AllOk { script := [.ok], rest := .ok } ∧
      1 ≤ (0 : Int).natAbs + (-1 : Int).natAbs ∧ 1 ≤ (-128 : Int).natAbs + (127 : Int).natAbs ∧
      mapPixel State.reset.topo 7 0 .a ≠ none := by decide +kernel

/-- The first and the last flush failing; the failing answer in the script, and the one that a sink gives for good (the unreachable
device); and an empty SHIFT, which never draws it. -/
theorem test_hyp_ExactShiftStopsAtTheFailedFlush :
    State.reset.coalescing = .exactFrames ∧
      ((∀ k, k < 0 → sinkAnswer (sinkAfter^[k] (failsAlways 0x0002#16)) = .ok) ∧
        sinkAnswer (sinkAfter^[0] (failsAlways 0x0002#16)) = .err 0x0002#16 ∧ 0 < (-128 : Int).natAbs + (-128 : Int).natAbs) ∧
      ((∀ k, k < 1 → sinkAnswer (sinkAfter^[k] (failsSecond 0xFFFF#16)) = .ok) ∧
        sinkAnswer (sinkAfter^[1] (failsSecond 0xFFFF#16)) = .err 0xFFFF#16 ∧ 1 < (1 : Int).natAbs + (-1 : Int).natAbs) ∧
      (let k : Sink := { script := [.ok], rest := .err 0x0000#16 }
       (∀ i, i < 1 → sinkAnswer (sinkAfter^[i] k) = .ok) ∧ sinkAnswer (sinkAfter^[1] k) = .err 0x0000#16) ∧
      ({ State.reset with coalescing := .coalesced } : State).coalescing = .coalesced ∧ (0 : Int).natAbs + (0 : Int).natAbs = 0 := by
  decide +kernel

/-- An in-domain pixel whose source is in the grid, and pixels whose source is outside it on each side (section 3.6). -/
theorem test_hyp_ShiftWithoutWrapTranslatesTheGrid :
    AllOk State.reset.sink ∧
      (mapPixel State.reset.topo 7 7 .a ≠ none ∧ mapPixel State.reset.topo (7 - 1) (7 - 1) .a ≠ none) ∧
      (mapPixel State.reset.topo 0 0 .a ≠ none ∧ mapPixel State.reset.topo (0 - 1) (0 - 0) .a = none) ∧
      (mapPixel State.reset.topo 7 7 .a ≠ none ∧ mapPixel State.reset.topo (7 - 0) (7 - -1) .a = none) ∧
      (mapPixel (start .m16x8c []).topo 15 0 .a ≠ none ∧ mapPixel (start .m16x8c []).topo (15 - -128) (0 - 127) .a = none) := by
  decide +kernel

/-- The four full cycles, on an 8 by 8 and a 16 by 8 grid. -/
theorem test_hyp_FullCycleWithWrapRestoresTheBuffer :
    AllOk (start .m16x8c []).sink ∧ (16 : Int) = columns (start .m16x8c []).topo ∧ (-8 : Int) = -(columns State.reset.topo : Int) ∧
      (8 : Int) = rows State.reset.topo ∧ (-8 : Int) = -(rows (start .m16x8c []).topo : Int) := by decide +kernel

/-- For RDBIT and WRBIT: the first and the last position; and both bytes of FILLRAW. -/
theorem test_hyp_buffer_commands :
    (1 ≤ 1 ∧ 1 ≤ 16) ∧ (1 ≤ 16 ∧ 16 ≤ 16) ∧ ((0x00#8 : Byte) = 0x00#8 ∨ (0x00#8 : Byte) = 0xFF#8) ∧
      ((0xFF#8 : Byte) = 0x00#8 ∨ (0xFF#8 : Byte) = 0xFF#8) := by decide +kernel

/-- The three clauses of InitSendsItsThreeBytesInOrder: the first, the second, no or only the third write failing. -/
theorem test_hyp_InitSendsItsThreeBytesInOrder :
    sinkAnswer (failsAlways 0x0001#16) ≠ .ok ∧
      (sinkAnswer (failsSecond 0x0001#16) = .ok ∧ sinkAnswer (sinkAfter (failsSecond 0x0001#16)) ≠ .ok) ∧
      (sinkAnswer State.reset.sink = .ok ∧ sinkAnswer (sinkAfter State.reset.sink) = .ok) := by decide +kernel

/-- The four bus-side rows, with an answer of ok. -/
theorem test_hyp_BusSideRowsAreTheirBusWrites :
    sinkAnswer State.reset.sink = .ok ∧ [0x21#8] = ([0x21#8] : List Byte) ∧
      [0x87#8] = [BitVec.ofNat 8 (0x81 + 2 * (3#2 : BitVec 2).toNat)] ∧
      [0xEF#8] = [BitVec.ofNat 8 (0xE0 + (15#4 : BitVec 4).toNat)] ∧
      0x00#8 :: List.replicate 16 0x5A#8 = 0x00#8 :: (Vector.replicate 16 0x5A#8).toList := by decide +kernel

/-- For both monochrome reductions. -/
theorem test_hyp_monochrome_reductions :
    (start .m16x8d []).topo ≠ .m8x8x2 ∧ mapPixel (start .m16x8d []).topo 8 0 .a = some { pos := 2, mask := 0x01#8 } := by decide +kernel

/-- Reset has the invariant and a step on FLUSH answers next: for StepKeepsTheInvariant, BusTraceOnlyGrowsByTheFourShapes and
the second half of StrapsAndHostSideNeverChange. -/
theorem test_hyp_step_next :
    Inv (State.reset.presented (.word 0xB0000000#32)) ∧ ∃ t, step (State.reset.presented (.word 0xB0000000#32)) = .next t := by
  refine ⟨⟨by decide, .inl rfl, by simp [State.presented, State.reset, State.resetWith], rfl⟩, ?_⟩
  have hd : decodeWord 0xB0000000#32 = .ok .flush := by decide
  exact ⟨(State.reset.accept 0xB0000000#32 [] []).flushAndComplete, by
    simp [step, State.presented, State.reset, State.resetWith, runWord, State.accept, hd, exec, execFlush]⟩

/-- For WriteMatrixHolds: each kind of state is changed by an instruction that may. -/
theorem test_hyp_WriteMatrixHolds :
    (ran State.reset 0xA00000FF#32).map State.fb ≠ some State.reset.fb ∧
      (ran State.reset 0xD0000003#32).map State.blink ≠ some State.reset.blink ∧
      (ran State.reset 0xE000000F#32).map State.bright ≠ some State.reset.bright ∧ isCommand .oscOn = false := by decide +kernel

/-- A SHIFT by two with `coalesced` takes a free choice. -/
theorem test_hyp_WriteMatrixHolds_draws :
    (afterChoice { State.reset with coalescing := .coalesced } false).draws ≠ State.reset.draws := by decide +kernel

/-- Reset but for the outputs, BUSADDR and the command word. -/
def otherOutputs : State :=
  { State.reset with
    blink := 3#2, bright := 15#4, resp := 0x10000000#32, dev := .holds (Vector.replicate 16 0x5A#8), busAddr := 0x71#8,
    cmd := 0xB0000000#32, bus := [{ addr := 0x71#8, bytes := [0x21#8], answer := .ok }] }

/-- For OutputsAreNeverReadBack: two states that differ in every output, a command and a bus-side row. -/
theorem test_hyp_OutputsAreNeverReadBack :
    otherOutputs ≠ State.reset ∧ otherOutputs.topo = State.reset.topo ∧ otherOutputs.setpFrames = State.reset.setpFrames ∧
      otherOutputs.coalescing = State.reset.coalescing ∧ otherOutputs.fb = State.reset.fb ∧ otherOutputs.src = State.reset.src ∧
      otherOutputs.sink = State.reset.sink ∧ otherOutputs.draws = State.reset.draws ∧ isCommand .flush = true ∧ isCommand .oscOn = false := by decide +kernel

/-- Each form of CompletedFlushingCommandMakesDeviceEqualBuffer, completed. -/
theorem test_hyp_CompletedFlushingCommandMakesDeviceEqualBuffer :
    mapPixel State.reset.topo 7 7 .a ≠ none ∧ respOf State.reset 0x30010707#32 = some 0x00000000#32 ∧
      respOf State.reset 0x40010000#32 = some 0x00000000#32 ∧ respOf State.reset 0x50000808#32 = some 0x00000000#32 ∧
      respOf State.reset 0x6000FF00#32 = some 0x00000000#32 ∧ respOf State.reset 0x90011080#32 = some 0x00000000#32 ∧
      respOf State.reset 0xB0000000#32 = some 0x00000000#32 := by decide +kernel

/-- A command that ends in TRANSPORT_ERROR. -/
theorem test_hyp_TransportErrorLeavesTheDeviceUnknown :
    isCommand .flush = true ∧
      (ran { State.reset with sink := failsAlways 0x0002#16 } 0xB0000000#32).map (fun t => respStatus t.resp) = some 3#4 := by
  decide +kernel

theorem test_hyp_BootSequenceMakesTheStateKnown : AllOk State.reset.sink := by decide +kernel

/-- Only a command word waits, and one that is no command. -/
theorem test_hyp_CommandRunsAreNeverStopped :
    OnlyWordsWait ((State.reset.presented (.word 0xB0000000#32)).presented (.word 0xFFFFFFFF#32)) := by
  intro r hr
  simp only [State.presented, State.reset, State.resetWith, List.mem_cons, List.not_mem_nil, or_false] at hr
  rcases hr with rfl | rfl
  · exact ⟨_, rfl⟩
  · exact ⟨_, rfl⟩

end Sys2Proof.Tests
end

section
/-! The invariant of the machine: reset has it and every step keeps it; the straps, the host's side and the trace are further
properties that every named update keeps (spec/10_state.md R22, R27, R31, R33). At the end, the step on a code that decodes (R21). -/

namespace Sys2Proof.Machine

open Sys2Proof

/-! ### What every named update keeps, every step keeps -/

/-- A step keeps what every named update and the taking of a request keep. -/
theorem Kept.step {P : State → Prop} (k : Kept P) (hword : ∀ s w src later, P s → P (s.accept w src later))
    (hbus : ∀ s later, P s → P (s.acceptBusSide later)) {s t : State} (h : P s) (hstep : Machine.step s = .next t) : P t := by
  have exec_next : ∀ {i : Instr} {a : State}, P a → Machine.exec i a = .next t → P t := fun {i a} ha he => by
    obtain ⟨u, hu, hkeep⟩ := k.exec i a
    cases hu.symm.trans he
    exact hkeep ha
  rcases step_cases s with he | ⟨w, src, later, i, he⟩ | ⟨w, src, later, he⟩ | ⟨later, i, he⟩ | he
  · cases he.symm.trans hstep
    exact h
  · exact exec_next (hword _ _ _ _ h) (he.symm.trans hstep)
  · cases he.symm.trans hstep
    exact k.raise _ (hword _ _ _ _ h)
  · exact exec_next (hbus _ _ h) (he.symm.trans hstep)
  · cases he.symm.trans hstep

/-! ### The trace and the device shadow -/

/-- Every bus write of CMSE has one of the four shapes (R27, R70 to R73). -/
theorem fourShapes_busMsgBytes : ∀ msg : BusMsg, FourShapes (busMsgBytes msg)
  | .oscOn => .inl rfl
  | .blink rate => .inr (.inl ⟨rate, by simp [busMsgBytes, blinkByte]⟩)
  | .bright level => .inr (.inr (.inl ⟨level, rfl⟩))
  | .frame data => .inr (.inr (.inr ⟨data, rfl⟩))

/-- One more bus write moves what the trace says of the display RAM as it moves the shadow (R28). -/
theorem devOfTrace_append (bus : List BusEntry) (addr : Byte) (msg : BusMsg) (a : BusAnswer) :
    devOfTrace (bus ++ [{ addr := addr, bytes := busMsgBytes msg, answer := a }]) = devAfter msg a (devOfTrace bus) := by
  rw [devOfTrace, List.foldl_append, ← devOfTrace]
  cases a with
  | err e => rfl
  | ok => cases msg <;> simp [devAfter, busMsgBytes, frameBytes, Vector.toList]

/-- The trace of `t` is that of `s` and further writes of the four shapes, all addressed to the BUSADDR of `s`, which `t` has too. -/
def TraceGrown (s t : State) : Prop :=
  t.busAddr = s.busAddr ∧ ∃ new, t.bus = s.bus ++ new ∧ ∀ e ∈ new, e.addr = s.busAddr ∧ FourShapes e.bytes

theorem TraceGrown.refl (s : State) : TraceGrown s s := ⟨rfl, [], by simp⟩

theorem TraceGrown.afterBusWrite {s t : State} (msg : BusMsg) (h : TraceGrown s t) : TraceGrown s (t.afterBusWrite msg) := by
  obtain ⟨haddr, new, hbus, hnew⟩ := h
  refine ⟨haddr, new ++ [{ addr := t.busAddr, bytes := busMsgBytes msg, answer := sinkAnswer t.sink }], ?_, fun e he => ?_⟩
  · simp [hbus]
  · rcases List.mem_append.mp he with he | he
    · exact hnew e he
    · cases List.mem_singleton.mp he
      exact ⟨haddr, fourShapes_busMsgBytes msg⟩

theorem kept_traceGrown (s : State) : Kept (TraceGrown s) where
  fb _ _ _ h := h
  blink _ _ h := h
  bright _ _ h := h
  resp _ _ _ h := h
  draw _ h := h
  bus _ msg h := h.afterBusWrite msg

/-- Settles O53: only a bus write touches the trace, and it appends one entry. -/
theorem busTraceOnlyGrowsByTheFourShapes : Obligations.BusTraceOnlyGrowsByTheFourShapes := fun s _ hstep =>
  ((kept_traceGrown s).step (fun _ _ _ _ h => h) (fun _ _ h => h) (TraceGrown.refl s) hstep).2

/-! ### The invariant -/

theorem Inv.afterBusWrite {s : State} (msg : BusMsg) (h : Inv s) : Inv (s.afterBusWrite msg) := by
  obtain ⟨hfb, hresp, hbus, hdev⟩ := h
  refine ⟨hfb, hresp, fun e he => ?_, ?_⟩
  · rcases List.mem_append.mp he with he | he
    · exact hbus e he
    · cases List.mem_singleton.mp he
      exact ⟨rfl, fourShapes_busMsgBytes msg⟩
  · rw [State.afterBusWrite_dev, State.afterBusWrite_bus, devOfTrace_append, hdev]

theorem kept_inv : Kept Inv where
  fb _ _ hwf h := ⟨hwf h.1, h.2⟩
  blink _ _ h := h
  bright _ _ h := h
  resp _ _ hr h := ⟨h.1, hr, h.2.2⟩
  draw _ h := h
  bus _ msg h := h.afterBusWrite msg

/-- Settles O49: every named update keeps the invariant, and taking a request touches nothing it speaks of. -/
theorem stepKeepsTheInvariant : Obligations.StepKeepsTheInvariant := fun _ _ h hstep =>
  kept_inv.step (fun _ _ _ _ h => h) (fun _ _ h => h) h hstep

/-- Settles O50: the reset contents are stored in canonical form, and an empty trace leaves DEV unknown. -/
theorem resetHasTheInvariant : Obligations.ResetHasTheInvariant := fun p =>
  ⟨Memory.ofData_wf p.fbReset, .inl rfl, fun _ he => absurd he List.not_mem_nil, rfl⟩

/-! ### Reset -/

/-- A byte of the memory made of sixteen data bytes, after the first `n` of them are in. -/
theorem Memory.read_ofData_first (d : List Byte) (k n : Nat) :
    Memory.read ((List.range n).foldl (fun m k => Memory.write m (k + 1) (d.getD k Config.fbUnlisted)) []) (k + 1) =
      if k < n then d.getD k Config.fbUnlisted else Config.fbUnlisted := by
  induction n with
  | zero => rfl
  | succ n ih =>
    rw [List.range_succ, List.foldl_append, List.foldl_cons, List.foldl_nil, Memory.read_write, ih]
    by_cases hk : k = n
    · simp [hk]
    · simp [hk, show k < n + 1 ↔ k < n by omega]

/-- FB[k + 1] of sixteen data bytes is the byte at index k (R73). -/
theorem fbRead_ofData (d : Vector Byte 16) {k : Nat} (hk : k < 16) : fbRead (Memory.ofData d) (k + 1) = d[k] := by
  have hpos : 1 ≤ k + 1 ∧ k + 1 ≤ 16 := by omega
  rw [fbRead, if_pos hpos, Memory.ofData, Memory.read_ofData_first, if_pos hk]
  simp [hk]

/-- Settles O51: FB reads back FB_RESET (`fbRead_ofData`); every other value is the field reset gives it. -/
theorem resetPutsEveryValueInPlace : Obligations.ResetPutsEveryValueInPlace := fun p =>
  ⟨rfl, rfl, fbRead_zero _, fun k => fbRead_ofData p.fbReset k.isLt, rfl, rfl, rfl, rfl, rfl, rfl⟩

/-! ### The straps and the host's side -/

/-- `t` has the straps and the parameters of `s` (R7, R22). -/
def SameStraps (s t : State) : Prop :=
  t.topo = s.topo ∧ t.busAddr = s.busAddr ∧ t.setpFrames = s.setpFrames ∧ t.coalescing = s.coalescing

/-- `t` has the command word, the port and the image source of `s` (R20, R21, R117). -/
def SameHostSide (s t : State) : Prop := t.cmd = s.cmd ∧ t.port = s.port ∧ t.src = s.src

theorem kept_sameStraps (s : State) : Kept (SameStraps s) where
  fb _ _ _ h := h
  blink _ _ h := h
  bright _ _ h := h
  resp _ _ _ h := h
  draw _ h := h
  bus _ _ h := h

theorem kept_sameStraps_sameHostSide (s : State) : Kept fun t => SameStraps s t ∧ SameHostSide s t where
  fb _ _ _ h := h
  blink _ _ h := h
  bright _ _ h := h
  resp _ _ _ h := h
  draw _ h := h
  bus _ _ h := h

/-- Settles O52: no named update writes a strap, a parameter or the host's side; taking a request writes only the latter. -/
theorem strapsAndHostSideNeverChange : Obligations.StrapsAndHostSideNeverChange := by
  refine ⟨fun i s => ?_, fun s t hstep => ?_⟩
  · obtain ⟨t, hexec, hkeep⟩ := (kept_sameStraps_sameHostSide s).exec i s
    obtain ⟨⟨htopo, haddr, hframes, hcoal⟩, hhost⟩ := hkeep ⟨⟨rfl, rfl, rfl, rfl⟩, rfl, rfl, rfl⟩
    exact ⟨t, hexec, htopo, haddr, hframes, hcoal, hhost⟩
  · exact (kept_sameStraps s).step (fun _ _ _ _ h => h) (fun _ _ h => h) ⟨rfl, rfl, rfl, rfl⟩ hstep

/-! ### A step on a code that decodes -/

theorem step_word {s : State} {w : Word} {src : Image} {later : List Request} {i : Instr}
    (hport : s.port = { code := .word w, src := src } :: later) (hdec : decodeWord w = .ok i) :
    step s = exec i (s.accept w src later) := by
  simp only [step, hport, runWord, State.accept_cmd, hdec]

theorem step_bytes {s : State} {bs : List Byte} {src : Image} {later : List Request} {i : Instr}
    (hport : s.port = { code := .bytes bs, src := src } :: later) (hdec : decodeBus bs = .ok i) :
    step s = exec i (s.acceptBusSide later) := by
  simp only [step, hport, runBusSide, hdec]

/-- Settles O5: one equation of `step` for each kind of code. -/
theorem stepRunsTheDecodedInstruction : Obligations.StepRunsTheDecodedInstruction := fun _ _ _ _ =>
  ⟨fun _ hport hdec => step_word hport hdec, fun _ hport hdec => step_bytes hport hdec⟩

end Sys2Proof.Machine
end

section
/-! Which updates an instruction makes (spec/10_state.md R34). Two runs of one instruction from states that agree in its inputs make the
same updates, each of a kind the write matrix allows: what an instruction leaves alone, and what it never reads, follow from that. -/

namespace Sys2Proof.Machine

open Sys2Proof

/-! ### Updates and the write matrix -/

/-- The named updates of Machine/Ops.lean that a meaning makes before it ends, as data. -/
inductive Update where
  | fb (m : Memory)
  | blink (r : BitVec 2)
  | bright (l : BitVec 4)
  | draw
  | bus (msg : BusMsg)

/-- The state after an update. -/
def Update.run : Update → State → State
  | .fb m, s => s.withFb m
  | .blink r, s => s.withBlink r
  | .bright l, s => s.withBright l
  | .draw, s => s.withDraw
  | .bus msg, s => s.afterBusWrite msg

/-- The write columns of R34: whether an instruction may make an update of this kind. -/
def mayMake (i : Instr) : Update → Bool
  | .fb _ =>
    match i with
    | .setp .. | .fill _ | .loadimg .. | .shift .. | .wrbit .. | .fillraw _ => true
    | _ => false
  | .blink _ =>
    match i with
    | .blink _ | .init => true
    | _ => false
  | .bright _ =>
    match i with
    | .bright _ | .init => true
    | _ => false
  | .draw =>
    match i with
    | .shift .. => true
    | _ => false
  | .bus _ =>
    match i with
    | .map .. | .getp .. | .rdbit .. | .fillraw _ => false
    | _ => true

theorem mayMake_fb {i : Instr} {m : Memory} (h : mayMake i (.fb m) = true) :
    (∃ x y c, i = .setp x y c) ∨ (∃ c, i = .fill c) ∨ (∃ w h, i = .loadimg w h) ∨
      (∃ dx dy wrap, i = .shift dx dy wrap) ∨ (∃ k m v, i = .wrbit k m v) ∨ (∃ b, i = .fillraw b) := by
  cases i <;> simp [mayMake] at h ⊢

theorem mayMake_blink {i : Instr} {r : BitVec 2} (h : mayMake i (.blink r) = true) : (∃ r, i = .blink r) ∨ i = .init := by
  cases i <;> simp [mayMake] at h ⊢

theorem mayMake_bright {i : Instr} {l : BitVec 4} (h : mayMake i (.bright l) = true) : (∃ l, i = .bright l) ∨ i = .init := by
  cases i <;> simp [mayMake] at h ⊢

theorem mayMake_draw {i : Instr} (h : mayMake i .draw = true) : ∃ dx dy wrap, i = .shift dx dy wrap := by
  cases i <;> simp [mayMake] at h ⊢

theorem not_mayMake_bus {i : Instr} (msg : BusMsg)
    (h : (∃ x y p, i = .map x y p) ∨ (∃ x y, i = .getp x y) ∨ (∃ k m, i = .rdbit k m) ∨ (∃ b, i = .fillraw b)) :
    mayMake i (.bus msg) = false := by
  rcases h with ⟨_, _, _, rfl⟩ | ⟨_, _, rfl⟩ | ⟨_, _, rfl⟩ | ⟨_, rfl⟩ <;> rfl

/-! ### Two runs that make the same updates -/

/-- Two states that agree in all an instruction may read but BUSADDR (R34). -/
structure SameInputs (s s' : State) : Prop where
  topo : s'.topo = s.topo
  setpFrames : s'.setpFrames = s.setpFrames
  coalescing : s'.coalescing = s.coalescing
  fb : s'.fb = s.fb
  src : s'.src = s.src
  sink : s'.sink = s.sink
  draws : s'.draws = s.draws

theorem SameInputs.refl (s : State) : SameInputs s s := ⟨rfl, rfl, rfl, rfl, rfl, rfl, rfl⟩

/-- `SameUpdates i s s' t t'`: the same updates lead from `s` to `t` and from `s'` to `t'`, each one that `i` may make. A command writes
RESP once, at its end; a bus-side row does not write it (log 1). -/
inductive SameUpdates (i : Instr) : State → State → State → State → Prop
  | busSide {s s' : State} : isCommand i = false → SameUpdates i s s' s s'
  | resp {s s' : State} (r : Word) : isCommand i = true → SameUpdates i s s' (s.withResp r) (s'.withResp r)
  | update {s s' t t' : State} (u : Update) : mayMake i u = true → SameUpdates i (u.run s) (u.run s') t t' → SameUpdates i s s' t t'

theorem SameInputs.update {s s' : State} (h : SameInputs s s') : ∀ u : Update, SameInputs (u.run s) (u.run s')
  | .fb _ => { h with fb := rfl }
  | .blink _ => { h with }
  | .bright _ => { h with }
  | .draw => { h with draws := congrArg (· + 1) h.draws }
  | .bus _ => { h with sink := congrArg sinkAfter h.sink }

variable {i : Instr} {s s' t t' : State}

/-- A bus write inside a command: both sinks give the same answer. -/
theorem SameUpdates.send {msg : BusMsg} {goOn : State → State} (hc : isCommand i = true) (hm : mayMake i (.bus msg) = true)
    (h : SameInputs s s')
    (hg : ∀ {a a'}, SameInputs a a' → SameUpdates i a a' (goOn a) (goOn a')) :
    SameUpdates i s s' (s.send msg goOn) (s'.send msg goOn) := by
  refine .update (.bus msg) hm ?_
  cases ha : sinkAnswer s.sink with
  | ok =>
    rw [send_ok msg goOn ha, send_ok msg goOn (h.sink ▸ ha)]
    exact hg (h.update (.bus msg))
  | err e =>
    rw [send_err msg goOn ha, send_err msg goOn (h.sink ▸ ha)]
    exact .resp _ hc

theorem SameUpdates.sendAndComplete {msg : BusMsg} (hc : isCommand i = true) (hm : mayMake i (.bus msg) = true)
    (h : SameInputs s s') : SameUpdates i s s' (s.sendAndComplete msg) (s'.sendAndComplete msg) :=
  .send hc hm h fun _ => .resp _ hc

/-- A flush inside a command: both runs send the same frame. -/
theorem SameUpdates.flushThen {goOn : State → State} (hc : isCommand i = true) (hm : ∀ msg, mayMake i (.bus msg) = true)
    (h : SameInputs s s') (hg : ∀ {a a'}, SameInputs a a' → SameUpdates i a a' (goOn a) (goOn a')) :
    SameUpdates i s s' (s.flushThen goOn) (s'.flushThen goOn) := by
  rw [State.flushThen, State.flushThen, State.frameMsg, State.frameMsg, h.fb]
  exact .send hc (hm _) h hg

theorem SameUpdates.flushAndComplete (hc : isCommand i = true) (hm : ∀ msg, mayMake i (.bus msg) = true) (h : SameInputs s s') :
    SameUpdates i s s' s.flushAndComplete s'.flushAndComplete :=
  .flushThen hc hm h fun _ => .resp _ hc

/-- The common end of the commands that store and send: FB replaced, then flushed. -/
theorem SameUpdates.storeAndFlush (m : Memory) (hc : isCommand i = true) (hf : mayMake i (.fb m) = true)
    (hm : ∀ msg, mayMake i (.bus msg) = true) (h : SameInputs s s') :
    SameUpdates i s s' (s.withFb m).flushAndComplete (s'.withFb m).flushAndComplete :=
  .update (.fb m) hf (.flushAndComplete hc hm (h.update (.fb m)))

/-- SETP with one frame: both runs store the same pixel. -/
theorem SameUpdates.setpOneFrame (x y : Int) (c : Colour) (h : SameInputs s s') :
    SameUpdates (.setp x y c) s s' (Machine.setpOneFrame x y c s) (Machine.setpOneFrame x y c s') := by
  rw [Machine.setpOneFrame, Machine.setpOneFrame, h.topo, h.fb]
  split
  · exact .storeAndFlush _ rfl rfl (fun _ => rfl) h
  · exact .resp _ rfl

/-- SETP with a frame after each plane: plane B is stored into the buffer the first flush left. -/
theorem SameUpdates.setpTwoFrames (x y : Int) (c : Colour) (la lb : BitLoc) (h : SameInputs s s') :
    SameUpdates (.setp x y c) s s' (Machine.setpTwoFrames la lb c s) (Machine.setpTwoFrames la lb c s') := by
  rw [Machine.setpTwoFrames, Machine.setpTwoFrames, h.fb]
  refine .update (.fb _) rfl (.flushThen rfl (fun _ => rfl) (h.update (.fb _)) fun {a a'} ha => ?_)
  rw [ha.fb]
  exact .storeAndFlush _ rfl rfl (fun _ => rfl) ha

/-- Both runs of a SHIFT take a free choice or neither does (R139, log 10). -/
theorem SameUpdates.afterChoice {dx dy : Int} {wrap last : Bool} {goOn : State → State} (h : SameInputs s s')
    (hg : ∀ {a a'}, SameInputs a a' → SameUpdates (.shift dx dy wrap) a a' (goOn a) (goOn a')) :
    SameUpdates (.shift dx dy wrap) s s' (goOn (Machine.afterChoice s last)) (goOn (Machine.afterChoice s' last)) := by
  rw [Machine.afterChoice, Machine.afterChoice, h.coalescing]
  split
  · exact .update .draw rfl (hg (h.update .draw))
  · exact hg h

/-- Both runs make the same choice: it is read from the counter. -/
theorem SameInputs.omitsFrameNow (h : SameInputs s s') (last : Bool) :
    Machine.omitsFrameNow s' last = Machine.omitsFrameNow s last := by
  rw [Machine.omitsFrameNow, Machine.omitsFrameNow, h.coalescing, h.draws]

theorem SameUpdates.runUnitShifts (dx dy : Int) (wrap : Bool) :
    ∀ (ds : List Direction) {s s' : State}, SameInputs s s' →
      SameUpdates (.shift dx dy wrap) s s' (Machine.runUnitShifts wrap ds s) (Machine.runUnitShifts wrap ds s')
  | [], _, _, _ => .resp _ rfl
  | d :: ds, s, s', h => by
    have hmoved : SameInputs (s.withFb (unitShift s.topo wrap s.fb d)) (s'.withFb (unitShift s.topo wrap s.fb d)) :=
      h.update (.fb _)
    have hrest : ∀ {a a'}, SameInputs a a' → SameUpdates (.shift dx dy wrap) a a'
        (Machine.runUnitShifts wrap ds a) (Machine.runUnitShifts wrap ds a') := .runUnitShifts dx dy wrap ds
    refine .update (.fb (unitShift s.topo wrap s.fb d)) rfl ?_
    rw [Machine.runUnitShifts, Machine.runUnitShifts, h.topo, h.fb, hmoved.omitsFrameNow]
    split
    · exact .afterChoice hmoved hrest
    · exact .afterChoice (goOn := fun a => a.flushThen (Machine.runUnitShifts wrap ds)) hmoved
        fun ha => .flushThen rfl (fun _ => rfl) ha hrest

/-- Two runs of an instruction from states that agree in its inputs make the same updates, within the write matrix. -/
theorem exec_sameUpdates (i : Instr) (h : SameInputs s s') :
    ∃ t t', exec i s = .next t ∧ exec i s' = .next t' ∧ SameUpdates i s s' t t' := by
  cases i with
  | map x y p =>
    refine ⟨_, _, rfl, rfl, ?_⟩
    rw [h.topo]
    split
    · split <;> exact .resp _ rfl
    · exact .resp _ rfl
  | getp x y =>
    refine ⟨_, _, rfl, rfl, ?_⟩
    rw [h.topo, h.fb]
    split <;> exact .resp _ rfl
  | setp x y c =>
    refine ⟨_, _, rfl, rfl, ?_⟩
    rw [h.topo, h.setpFrames]
    split
    · split
      · split
        · exact .setpTwoFrames x y c _ _ h
        · exact .resp _ rfl
      · exact .setpOneFrame x y c h
    · exact .resp _ rfl
  | fill c =>
    refine ⟨_, _, rfl, rfl, ?_⟩
    rw [h.topo, h.fb]
    split
    · exact .storeAndFlush _ rfl rfl (fun _ => rfl) h
    · exact .resp _ rfl
  | loadimg w h' =>
    refine ⟨_, _, rfl, rfl, ?_⟩
    rw [h.topo, h.fb, h.src]
    split
    · exact .storeAndFlush _ rfl rfl (fun _ => rfl) h
    · exact .resp _ rfl
  | shift dx dy wrap => exact ⟨_, _, rfl, rfl, .runUnitShifts dx dy wrap _ h⟩
  | rdbit k m =>
    refine ⟨_, _, rfl, rfl, ?_⟩
    rw [h.fb]
    split <;> exact .resp _ rfl
  | wrbit k m v =>
    refine ⟨_, _, rfl, rfl, ?_⟩
    rw [h.fb]
    split
    · exact .storeAndFlush _ rfl rfl (fun _ => rfl) h
    · exact .resp _ rfl
  | fillraw b =>
    refine ⟨_, _, rfl, rfl, ?_⟩
    rw [h.fb]
    split
    · exact .update (.fb _) rfl (.resp _ rfl)
    · exact .resp _ rfl
  | flush => exact ⟨_, _, rfl, rfl, .flushAndComplete rfl (fun _ => rfl) h⟩
  | init =>
    refine ⟨_, _, rfl, rfl, .send rfl rfl h fun h1 => ?_⟩
    refine .update (.blink 0#2) rfl (.send rfl rfl (h1.update (.blink 0#2)) fun h2 => ?_)
    exact .update (.bright 15#4) rfl (.sendAndComplete rfl rfl (h2.update (.bright 15#4)))
  | blink rate => exact ⟨_, _, rfl, rfl, .update (.blink _) rfl (.sendAndComplete rfl rfl (h.update (.blink _)))⟩
  | bright level => exact ⟨_, _, rfl, rfl, .update (.bright _) rfl (.sendAndComplete rfl rfl (h.update (.bright _)))⟩
  | oscOn => exact ⟨_, _, rfl, rfl, .update (.bus .oscOn) rfl (.busSide rfl)⟩
  | blinkCmd rate => exact ⟨_, _, rfl, rfl, .update (.bus (.blink rate)) rfl (.busSide rfl)⟩
  | brightCmd level => exact ⟨_, _, rfl, rfl, .update (.bus (.bright level)) rfl (.busSide rfl)⟩
  | frame data => exact ⟨_, _, rfl, rfl, .update (.bus (.frame data)) rfl (.busSide rfl)⟩

/-! ### What an instruction leaves alone -/

/-- What no update that `i` may make changes, and no RESP word if `i` is a command, is after the run as before it. -/
theorem SameUpdates.keeps {α : Type} (g : State → α) (hu : ∀ u, mayMake i u = true → ∀ s, g (u.run s) = g s)
    (hr : isCommand i = true → ∀ s r, g (s.withResp r) = g s) (h : SameUpdates i s s' t t') : g t = g s ∧ g t' = g s' := by
  induction h with
  | busSide _ => exact ⟨rfl, rfl⟩
  | resp r hc => exact ⟨hr hc _ r, hr hc _ r⟩
  | update u hm _ ih => exact ⟨ih.1.trans (hu u hm _), ih.2.trans (hu u hm _)⟩

theorem SameUpdates.fb_kept (h : SameUpdates i s s' t t') (hm : ∀ m, mayMake i (.fb m) ≠ true) : t.fb = s.fb := by
  refine (h.keeps State.fb (fun u hu s => ?_) fun _ _ _ => rfl).1
  cases u with
  | fb m => exact absurd hu (hm m)
  | _ => rfl

theorem SameUpdates.blink_kept (h : SameUpdates i s s' t t') (hm : ∀ r, mayMake i (.blink r) ≠ true) : t.blink = s.blink := by
  refine (h.keeps State.blink (fun u hu s => ?_) fun _ _ _ => rfl).1
  cases u with
  | blink r => exact absurd hu (hm r)
  | _ => rfl

theorem SameUpdates.bright_kept (h : SameUpdates i s s' t t') (hm : ∀ l, mayMake i (.bright l) ≠ true) : t.bright = s.bright := by
  refine (h.keeps State.bright (fun u hu s => ?_) fun _ _ _ => rfl).1
  cases u with
  | bright l => exact absurd hu (hm l)
  | _ => rfl

theorem SameUpdates.draws_kept (h : SameUpdates i s s' t t') (hm : mayMake i .draw ≠ true) : t.draws = s.draws := by
  refine (h.keeps State.draws (fun u hu s => ?_) fun _ _ _ => rfl).1
  cases u with
  | draw => exact absurd hu hm
  | _ => rfl

theorem SameUpdates.bus_kept (h : SameUpdates i s s' t t') (hm : ∀ msg, mayMake i (.bus msg) = false) :
    t.bus = s.bus ∧ t.sink = s.sink ∧ t.dev = s.dev := by
  have hkept : (t.bus, t.sink, t.dev) = (s.bus, s.sink, s.dev) := by
    refine (h.keeps (fun s => (s.bus, s.sink, s.dev)) (fun u hu s => ?_) fun _ _ _ => rfl).1
    cases u with
    | bus msg => exact absurd hu (by simp [hm msg])
    | _ => rfl
  simpa only [Prod.mk.injEq] using hkept

/-- RESP is written by the end of a command only (R26, log 1). -/
theorem SameUpdates.resp_kept (h : SameUpdates i s s' t t') (hc : isCommand i = false) : t.resp = s.resp ∧ t'.resp = s'.resp :=
  h.keeps State.resp (fun u _ _ => by cases u <;> rfl) fun hc' => by simp [hc] at hc'

/-- Settles O54: what changed was updated, and only the rows that `mayMake` allows make that update. -/
theorem writeMatrixHolds : Obligations.WriteMatrixHolds := by
  intro i s
  obtain ⟨t, _, hexec, _, h⟩ := exec_sameUpdates i (SameInputs.refl s)
  refine ⟨t, hexec, fun hne => ?_, fun hne => ?_, fun hne => ?_, fun hi => h.bus_kept fun msg => not_mayMake_bus msg hi,
    fun hc => (h.resp_kept hc).1, fun hne => ?_⟩
  · exact by_contra fun hi => hne (h.fb_kept fun _ hm => hi (mayMake_fb hm))
  · exact by_contra fun hi => hne (h.blink_kept fun _ hm => hi (mayMake_blink hm))
  · exact by_contra fun hi => hne (h.bright_kept fun _ hm => hi (mayMake_bright hm))
  · exact by_contra fun hi => hne (h.draws_kept fun hm => hi (mayMake_draw hm))

/-! ### What an instruction never reads -/

/-- Two runs from `s` and `s'` have had the same effects so far: equal FB, sink and counter; entries of the same bytes and answers in the
trace, each addressed to its own BUSADDR; BLINK, BRIGHT and DEV each kept in both runs or equal. -/
structure SameEffects (s s' t t' : State) : Prop where
  fb : t'.fb = t.fb
  sink : t'.sink = t.sink
  draws : t'.draws = t.draws
  busAddr : t.busAddr = s.busAddr ∧ t'.busAddr = s'.busAddr
  trace : ∃ new new' : List BusEntry, t.bus = s.bus ++ new ∧ t'.bus = s'.bus ++ new' ∧
    new'.map (fun e => (e.bytes, e.answer)) = new.map (fun e => (e.bytes, e.answer)) ∧
    (∀ e ∈ new, e.addr = s.busAddr) ∧ (∀ e ∈ new', e.addr = s'.busAddr)
  blink : t'.blink = t.blink ∨ t.blink = s.blink ∧ t'.blink = s'.blink
  bright : t'.bright = t.bright ∨ t.bright = s.bright ∧ t'.bright = s'.bright
  dev : t'.dev = t.dev ∨ t.dev = s.dev ∧ t'.dev = s'.dev

theorem SameInputs.sameEffects (h : SameInputs s s') : SameEffects s s' s s' where
  fb := h.fb
  sink := h.sink
  draws := h.draws
  busAddr := ⟨rfl, rfl⟩
  trace := ⟨[], [], by simp⟩
  blink := .inr ⟨rfl, rfl⟩
  bright := .inr ⟨rfl, rfl⟩
  dev := .inr ⟨rfl, rfl⟩

/-- A bus write sets the shadow, whatever it was, or leaves it (R28). -/
theorem devAfter_cases (msg : BusMsg) (a : BusAnswer) :
    (∀ d d', devAfter msg a d' = devAfter msg a d) ∨ ∀ d, devAfter msg a d = d := by
  cases a with
  | err e => exact .inl fun _ _ => rfl
  | ok =>
    cases msg with
    | frame data => exact .inl fun _ _ => rfl
    | _ => exact .inr fun _ => rfl

theorem SameEffects.afterBusWrite (msg : BusMsg) (h : SameEffects s s' t t') :
    SameEffects s s' (t.afterBusWrite msg) (t'.afterBusWrite msg) where
  fb := h.fb
  sink := congrArg sinkAfter h.sink
  draws := h.draws
  busAddr := h.busAddr
  trace := by
    obtain ⟨new, new', hbus, hbus', hsame, haddr, haddr'⟩ := h.trace
    refine ⟨new ++ [⟨t.busAddr, busMsgBytes msg, sinkAnswer t.sink⟩], new' ++ [⟨t'.busAddr, busMsgBytes msg, sinkAnswer t'.sink⟩],
      ?_, ?_, ?_, ?_, ?_⟩
    · simp [hbus]
    · simp [hbus']
    · simp [hsame, h.sink]
    · simpa [or_imp, forall_and, h.busAddr.1] using haddr
    · simpa [or_imp, forall_and, h.busAddr.2] using haddr'
  blink := h.blink
  bright := h.bright
  dev := by
    simp only [State.afterBusWrite_dev, h.sink]
    rcases devAfter_cases msg (sinkAnswer t.sink) with hset | hkeep
    · exact .inl (hset _ _)
    · simpa only [hkeep] using h.dev

theorem SameEffects.update (h : SameEffects s s' t t') : ∀ u : Update, SameEffects s s' (u.run t) (u.run t')
  | .fb _ => { h with fb := rfl }
  | .blink _ => { h with blink := .inl rfl }
  | .bright _ => { h with bright := .inl rfl }
  | .draw => { h with draws := congrArg (· + 1) h.draws }
  | .bus msg => h.afterBusWrite msg

/-- Runs that make the same updates go on with the same effects. -/
theorem SameUpdates.sameEffects {a a' : State} (h : SameUpdates i s s' t t') (he : SameEffects a a' s s') : SameEffects a a' t t' := by
  induction h with
  | busSide _ => exact he
  | resp r _ => exact { he with }
  | update u _ _ ih => exact ih (he.update u)

/-- A command ends with the same RESP in both runs (R26). -/
theorem SameUpdates.resp_eq (h : SameUpdates i s s' t t') (hc : isCommand i = true) : t'.resp = t.resp := by
  induction h with
  | busSide hb => simp [hc] at hb
  | resp r _ => rfl
  | update u _ _ ih => exact ih

/-- Settles O55: both runs make the same updates, and no update reads what the two states may differ in, but BUSADDR as an address. -/
theorem outputsAreNeverReadBack : Obligations.OutputsAreNeverReadBack := by
  intro i s s' htopo hframes hcoal hfb hsrc hsink hdraws
  have hin : SameInputs s s' := ⟨htopo, hframes, hcoal, hfb, hsrc, hsink, hdraws⟩
  obtain ⟨t, t', hexec, hexec', h⟩ := exec_sameUpdates i hin
  have he := h.sameEffects hin.sameEffects
  obtain ⟨new, new', hbus, hbus', hsame, haddr, haddr'⟩ := he.trace
  refine ⟨t, t', new, new', hexec, hexec', he.fb, he.sink, he.draws, ?_, hbus, hbus', hsame, haddr, haddr', he.blink, he.bright, he.dev⟩
  split
  · next hc => exact h.resp_eq hc
  · next hc => exact h.resp_kept (by simpa using hc)

end Sys2Proof.Machine
end

section
/-! The device follows the buffer (spec/10_state.md R28, spec/20_memory.md R48, R51): a command whose last act before it completes is a
flush leaves DEV equal to FB[1..16], and one that raises an outcome does not complete. -/

namespace Sys2Proof.Machine

open Sys2Proof

/-- DEV holds the sixteen data bytes of FB. -/
def DevIsFb (s : State) : Prop := s.dev = .holds (fbData s.fb)

/-- If the command that led here has completed (RESP 0x00000000), DEV holds the data bytes of FB. -/
def DevIsFbIfCompleted (t : State) : Prop := t.resp = 0x00000000#32 → DevIsFb t

/-- An outcome that is raised is told from completion by STATUS (R66, R67). -/
theorem respRaised_ne_zero : ∀ r : Raised, respRaised r ≠ 0x00000000#32
  | .illegalCommand => by rw [respRaised_illegal]; decide
  | .dimensionMismatch => by rw [respRaised_dimension]; decide
  | .transportError e => by
    rw [respRaised_transport]
    have he := e.isLt
    exact fun h => by bv_omega

theorem devIsFbIfCompleted_raise (s : State) (r : Raised) : DevIsFbIfCompleted (s.raise r) :=
  fun h => absurd h (respRaised_ne_zero r)

/-- A frame answered ok loads the device with the buffer as it was sent (R28, R154). -/
theorem devIsFb_afterFrame {s : State} (h : sinkAnswer s.sink = .ok) : DevIsFb (s.afterBusWrite s.frameMsg) := by
  rw [DevIsFb, State.afterBusWrite_dev, State.afterBusWrite_fb, h, State.frameMsg, devAfter_ok_frame]

/-- A flush inside a command: what follows it starts with DEV equal to FB, or the command has failed. -/
theorem devIsFbIfCompleted_flushThen (s : State) {goOn : State → State} (hg : ∀ u, DevIsFb u → DevIsFbIfCompleted (goOn u)) :
    DevIsFbIfCompleted (s.flushThen goOn) := by
  rw [State.flushThen]
  rcases send_eq s s.frameMsg goOn with ⟨hok, he⟩ | ⟨e, -, he⟩
  · rw [he]; exact hg _ (devIsFb_afterFrame hok)
  · rw [he]; exact devIsFbIfCompleted_raise _ _

theorem devIsFbIfCompleted_flushAndComplete (s : State) : DevIsFbIfCompleted s.flushAndComplete :=
  devIsFbIfCompleted_flushThen s fun _ h _ => h

theorem devIsFbIfCompleted_setpOneFrame {x y : Int} {s : State} (c : Colour) (h : inDomain s.topo x y = true) :
    DevIsFbIfCompleted (setpOneFrame x y c s) := by
  rw [setpOneFrame, pixelWrite_in s.fb c h]
  exact devIsFbIfCompleted_flushAndComplete _

theorem devIsFbIfCompleted_setpTwoFrames (la lb : BitLoc) (c : Colour) (s : State) :
    DevIsFbIfCompleted (setpTwoFrames la lb c s) :=
  devIsFbIfCompleted_flushThen _ fun _ _ => devIsFbIfCompleted_flushAndComplete _

/-- A run of unit shifts that begins with DEV equal to FB, or has a unit shift to make: the frame after the last one is never left
out (R139). -/
theorem devIsFbIfCompleted_runUnitShifts (wrap : Bool) :
    ∀ (ds : List Direction) (s : State), ds ≠ [] ∨ DevIsFb s → DevIsFbIfCompleted (runUnitShifts wrap ds s)
  | [], _, h => fun _ => h.resolve_left (· rfl)
  | d :: ds, s, _ => by
    obtain ⟨q, ⟨hds, he⟩ | he⟩ := runUnitShifts_cons wrap d ds s
    · rw [he]
      exact devIsFbIfCompleted_runUnitShifts wrap ds _ (.inl hds)
    · rw [he]
      exact devIsFbIfCompleted_flushThen _ fun u hu => devIsFbIfCompleted_runUnitShifts wrap ds u (.inr hu)

theorem unitShifts_ne_nil {dx dy : Int} (h : dx ≠ 0 ∨ dy ≠ 0) : unitShifts dx dy ≠ [] := by
  rw [← List.length_pos_iff, unitShifts_length]
  omega

/-- FILL, LOADIMG and WRBIT: store and flush, or raise an outcome if their condition fails (R62, R116). -/
theorem devIsFbIfCompleted_flushOrRaise (p : Prop) [Decidable p] (s u : State) (r : Raised) :
    DevIsFbIfCompleted (if p then u.flushAndComplete else s.raise r) := by
  split
  · exact devIsFbIfCompleted_flushAndComplete u
  · exact devIsFbIfCompleted_raise s r

/-- SETP in the domain flushes last with one frame and with two, or raises IllegalCommand (R112, R113). -/
theorem exec_setp_devIsFbIfCompleted {x y : Int} {s : State} (c : Colour) (h : inDomain s.topo x y = true) :
    ∃ t, exec (.setp x y c) s = .next t ∧ DevIsFbIfCompleted t := by
  refine ⟨_, rfl, ?_⟩
  split
  · split
    · rw [mapPixel_in .a h, mapPixel_in .b h]
      exact devIsFbIfCompleted_setpTwoFrames _ _ c s
    · exact devIsFbIfCompleted_setpOneFrame c h
  · exact devIsFbIfCompleted_raise s _

/-- Settles O57: each of these commands raises an outcome, which is not completion, or ends with a flush. -/
theorem completedFlushingCommandMakesDeviceEqualBuffer : Obligations.CompletedFlushingCommandMakesDeviceEqualBuffer := by
  rintro i s (⟨x, y, c, rfl, hdom⟩ | ⟨c, rfl⟩ | ⟨w, h, rfl⟩ | ⟨dx, dy, wrap, rfl, hd⟩ | ⟨k, m, v, rfl⟩ | rfl)
  · exact exec_setp_devIsFbIfCompleted c (by simpa [mapPixel_eq_none_iff] using hdom)
  · exact ⟨_, rfl, devIsFbIfCompleted_flushOrRaise _ s _ _⟩
  · exact ⟨_, rfl, devIsFbIfCompleted_flushOrRaise _ s _ _⟩
  · exact ⟨_, rfl, devIsFbIfCompleted_runUnitShifts wrap _ s (.inl (unitShifts_ne_nil hd))⟩
  · exact ⟨_, rfl, devIsFbIfCompleted_flushOrRaise _ s _ _⟩
  · exact ⟨_, rfl, devIsFbIfCompleted_flushAndComplete s⟩

end Sys2Proof.Machine
end

section
/-! The command word by its fields (spec/30_encoding.md R60, R62): what a mask and match say of each field. -/

namespace Sys2Proof

/-! ### A word by its fields (R60) -/

@[simp] theorem fieldReserved_cmdWord (op : BitVec 4) (w : Bool) (c : BitVec 2) (b a : Byte) :
    fieldReserved (cmdWord op w c b a) = 0#9 := by
  apply BitVec.eq_of_toNat_eq
  have := c.isLt; have := b.isLt; have := a.isLt
  have hw : w.toNat < 2 := Bool.toNat_lt w
  simp only [fieldReserved, BitVec.extractLsb'_toNat, cmdWord_toNat, Nat.shiftRight_eq_div_pow, BitVec.toNat_ofNat]
  omega

/-- Two words with the same six fields are one word. -/
theorem word_ext {w v : Word} (hop : fieldOP w = fieldOP v) (hr : fieldReserved w = fieldReserved v) (hw : fieldW w = fieldW v)
    (hc : fieldC w = fieldC v) (hb : fieldB w = fieldB v) (ha : fieldA w = fieldA v) : w = v := by
  apply BitVec.eq_of_getLsbD_eq
  intro n hn
  have bit {lo len : Nat} (h : w.extractLsb' lo len = v.extractLsb' lo len) (hlo : lo ≤ n) (hlen : n - lo < len) :
      w.getLsbD n = v.getLsbD n := by
    simpa [hlen, Nat.add_sub_cancel' hlo] using congrArg (BitVec.getLsbD · (n - lo)) h
  rcases (by omega : n < 8 ∨ 8 ≤ n ∧ n < 16 ∨ 16 ≤ n ∧ n < 18 ∨ n = 18 ∨ 19 ≤ n ∧ n < 28 ∨ 28 ≤ n) with h | h | h | h | h | h
  · exact bit ha (by omega) (by omega)
  · exact bit hb (by omega) (by omega)
  · exact bit hc (by omega) (by omega)
  · exact h ▸ hw
  · exact bit hr (by omega) (by omega)
  · exact bit hop (by omega) (by omega)

theorem cmdWord_eq_iff {op : BitVec 4} {w : Bool} {c : BitVec 2} {b a : Byte} {v : Word} :
    cmdWord op w c b a = v ↔
      fieldOP v = op ∧ fieldReserved v = 0#9 ∧ fieldW v = w ∧ fieldC v = c ∧ fieldB v = b ∧ fieldA v = a := by
  constructor
  · rintro rfl
    simp
  · rintro ⟨rfl, hr, rfl, rfl, rfl, rfl⟩
    exact cmdWord_fields hr

/-- A mask and match of a word is a mask and match of each of its fields (R62). -/
theorem and_eq_iff_fields {w mask pattern : Word} :
    w &&& mask = pattern ↔
      fieldOP w &&& fieldOP mask = fieldOP pattern ∧ fieldReserved w &&& fieldReserved mask = fieldReserved pattern ∧
      (fieldW w && fieldW mask) = fieldW pattern ∧ fieldC w &&& fieldC mask = fieldC pattern ∧
      fieldB w &&& fieldB mask = fieldB pattern ∧ fieldA w &&& fieldA mask = fieldA pattern := by
  have hop : fieldOP (w &&& mask) = fieldOP w &&& fieldOP mask := BitVec.extractLsb'_and
  have hr : fieldReserved (w &&& mask) = fieldReserved w &&& fieldReserved mask := BitVec.extractLsb'_and
  have hw : fieldW (w &&& mask) = (fieldW w && fieldW mask) := BitVec.getLsbD_and
  have hc : fieldC (w &&& mask) = fieldC w &&& fieldC mask := BitVec.extractLsb'_and
  have hb : fieldB (w &&& mask) = fieldB w &&& fieldB mask := BitVec.extractLsb'_and
  have ha : fieldA (w &&& mask) = fieldA w &&& fieldA mask := BitVec.extractLsb'_and
  rw [← hop, ← hr, ← hw, ← hc, ← hb, ← ha]
  exact ⟨fun h => by simp [h], fun ⟨hop, hr, hw, hc, hb, ha⟩ => word_ext hop hr hw hc hb ha⟩

/-! ### The fields of a word written as a number, so that `simp` computes those of a mask -/

theorem extractLsb'_ofNat (lo len n : Nat) (h : lo + len ≤ 32) :
    (BitVec.ofNat 32 n).extractLsb' lo len = BitVec.ofNat len (n / 2 ^ lo) := by
  apply BitVec.eq_of_getLsbD_eq
  intro k hk
  have hlt : lo + k < 32 := by omega
  simp only [BitVec.getLsbD_extractLsb', BitVec.getLsbD_ofNat, Nat.testBit_div_two_pow, hk, hlt, decide_true, Bool.true_and,
    Nat.add_comm k lo]

@[simp] theorem fieldOP_ofNat (n : Nat) : fieldOP (BitVec.ofNat 32 n) = BitVec.ofNat 4 (n / 2 ^ 28) :=
  extractLsb'_ofNat 28 4 n (by decide)

@[simp] theorem fieldReserved_ofNat (n : Nat) : fieldReserved (BitVec.ofNat 32 n) = BitVec.ofNat 9 (n / 2 ^ 19) :=
  extractLsb'_ofNat 19 9 n (by decide)

@[simp] theorem fieldW_ofNat (n : Nat) : fieldW (BitVec.ofNat 32 n) = decide (n / 2 ^ 18 % 2 = 1) := by
  rw [fieldW, BitVec.getLsbD_ofNat, Nat.testBit_eq_decide_div_mod_eq]
  rfl

@[simp] theorem fieldC_ofNat (n : Nat) : fieldC (BitVec.ofNat 32 n) = BitVec.ofNat 2 (n / 2 ^ 16) :=
  extractLsb'_ofNat 16 2 n (by decide)

@[simp] theorem fieldB_ofNat (n : Nat) : fieldB (BitVec.ofNat 32 n) = BitVec.ofNat 8 (n / 2 ^ 8) :=
  extractLsb'_ofNat 8 8 n (by decide)

@[simp] theorem fieldA_ofNat (n : Nat) : fieldA (BitVec.ofNat 32 n) = BitVec.ofNat 8 n := by
  rw [fieldA, extractLsb'_ofNat 0 8 n (by decide), Nat.pow_zero, Nat.div_one]

/-! ### A field that the mask covers whole -/

@[simp] theorem and_ones_op (x : BitVec 4) : x &&& 15#4 = x := BitVec.and_allOnes

@[simp] theorem and_ones_reserved (x : BitVec 9) : x &&& 511#9 = x := BitVec.and_allOnes

@[simp] theorem and_ones_c (x : BitVec 2) : x &&& 3#2 = x := BitVec.and_allOnes

@[simp] theorem and_ones_byte (x : Byte) : x &&& 255#8 = x := BitVec.and_allOnes

/-! ### C of MAP and of WRBIT, whose mask covers C[1] (R62, R63) -/

@[simp] theorem planeField_and_bit1 (p : Plane) : planeField p &&& 2#2 = 0#2 := by cases p <;> rfl

@[simp] theorem valueField_and_bit1 (v : Bool) : valueField v &&& 2#2 = 0#2 := by cases v <;> rfl

@[simp] theorem valueField_getElem_zero (v : Bool) : (valueField v)[0] = v := valueField_bit v

theorem planeField_planeOf {c : BitVec 2} (h : c &&& 2#2 = 0#2) : planeField (planeOf c) = c := by
  revert h; revert c; decide

theorem valueField_of_getElem_zero {v : BitVec 2} (h : v &&& 2#2 = 0#2) : valueField v[0] = v := by
  revert h; revert v; decide

/-! ### The bytes of R71 and R72, from their mask and match -/

theorem blinkByte_of_mask {b : Byte} (h : b &&& 0xF9#8 = 0x81#8) : blinkByte (b.extractLsb' 1 2) = b := by
  revert h; revert b; decide

theorem brightByte_of_mask {b : Byte} (h : b &&& 0xF0#8 = 0xE0#8) : brightByte (b.extractLsb' 0 4) = b := by
  revert h; revert b; decide

end Sys2Proof
end

section
/-! The decoder and the encoder are inverses of each other (spec/30_encoding.md R60 to R63, R70 to R74), the decoder accepts exactly the
words of the thirteen rows (R62), and every other word is refused (R68). -/

namespace Sys2Proof

open Machine

theorem underMask_ok_iff {w mask pattern : Word} {i j : Instr} :
    underMask w mask pattern i = .ok j ↔ w &&& mask = pattern ∧ i = j := by
  unfold underMask
  split <;> simp [*]

/-! ### Decoding what was encoded -/

/-- OP of the encoded word selects the instruction's own row, whose mask it meets field by field; every operand is read back from its
field. -/
theorem decode_encode {i : Instr} (hwf : i.wf = true) : decode (encode i) = .ok i := by
  cases i with
  | map _ _ _ | getp _ _ | setp _ _ _ | shift _ _ _ =>
    obtain ⟨hx, hy⟩ := Bool.and_eq_true_iff.mp hwf
    simp [encode, decode, decodeWord, underMask_ok_iff, and_eq_iff_fields, sext8_signedField, hx, hy, planeOf_planeField]
  | loadimg _ _ =>
    obtain ⟨hw, hh⟩ := Bool.and_eq_true_iff.mp hwf
    simp [encode, decode, decodeWord, underMask_ok_iff, and_eq_iff_fields, zext8_unsignedField, hw, hh]
  | rdbit _ _ | wrbit _ _ _ =>
    have hi := zext8_unsignedField hwf
    simp [encode, decode, decodeWord, underMask_ok_iff, and_eq_iff_fields, hi]
  | fill _ | fillraw _ | flush | init | blink _ | bright _ =>
    simp [encode, decode, decodeWord, underMask_ok_iff, and_eq_iff_fields]
  | oscOn => exact decodeBusByte_oscOn
  | blinkCmd rate => exact decodeBusByte_blink rate
  | brightCmd level => exact decodeBusByte_bright level
  | frame data => exact decodeBus_frame data

/-- Settles O1: `decode_encode`, the seventeen constructors in turn. -/
theorem encodedInstructionDecodesToItself : Obligations.EncodedInstructionDecodesToItself := fun _ hwf => decode_encode hwf

/-! ### Encoding what was decoded -/

/-- The row's mask holds every field that the row does not use at zero (`hrow`), so the word is `cmdWord` of the fields that its operands
were read from. -/
theorem encode_of_decodeWord {w : Word} {i : Instr} (h : decodeWord w = .ok i) : encode i = .word w ∧ i.wf = true := by
  unfold decodeWord at h
  split at h
  case h_14 => cases h
  all_goals
    obtain ⟨hrow, rfl⟩ := underMask_ok_iff.mp h
    rw [and_eq_iff_fields] at hrow
    simp at hrow
    simp [hrow, encode, cmdWord_eq_iff, signedField_sext8, unsignedField_zext8, planeField_planeOf, valueField_of_getElem_zero,
      Instr.wf, fits_sext8, fits_zext8]

theorem encode_of_decodeBusByte {b : Byte} {i : Instr} (h : decodeBusByte b = .ok i) : encode i = .bytes [b] ∧ i.wf = true := by
  unfold decodeBusByte at h
  split_ifs at h with hosc hblink hbright
  · cases h
    exact ⟨by rw [encode, hosc], rfl⟩
  · cases h
    exact ⟨by rw [encode, blinkByte_of_mask hblink], rfl⟩
  · cases h
    exact ⟨by rw [encode, brightByte_of_mask hbright], rfl⟩

theorem encode_of_decodeBus {bs : List Byte} {i : Instr} (h : decodeBus bs = .ok i) : encode i = .bytes bs ∧ i.wf = true := by
  unfold decodeBus at h
  split at h
  · cases h
  · exact encode_of_decodeBusByte h
  · split_ifs at h with hlen hzero
    cases h
    exact ⟨by simp [encode, frameBytes, hzero, Vector.toList], rfl⟩

/-- Settles O2: a code is a command word or the bytes of a bus write. -/
theorem decodedCodeIsItsEncoding : Obligations.DecodedCodeIsItsEncoding
  | .word _, _, h => encode_of_decodeWord h
  | .bytes _, _, h => encode_of_decodeBus h

/-! ### The thirteen rows -/

theorem row_of_decodeWord {w : Word} {i : Instr} (h : decodeWord w = .ok i) : ∃ row ∈ commandRows, w &&& row.2 = row.1 := by
  unfold decodeWord at h
  split at h
  case h_14 => cases h
  all_goals exact ⟨(_, _), by simp [commandRows], (underMask_ok_iff.mp h).1⟩

/-- Every row's mask covers OP, so a word that meets a row has the row's OP, by which the decoder finds that row. -/
theorem decodeWord_of_row {w : Word} {row : Word × Word} (hrow : row ∈ commandRows) (h : w &&& row.2 = row.1) :
    ∃ i, decodeWord w = .ok i := by
  have hmask : ∀ row ∈ commandRows, fieldOP row.2 = 15#4 := by simp [commandRows]
  have hop : fieldOP w = fieldOP row.1 := by simpa [hmask row hrow] using (and_eq_iff_fields.mp h).1
  fin_cases hrow <;> simp [decodeWord, hop, underMask_ok_iff, h]

/-- Settles O3: `row_of_decodeWord` and `decodeWord_of_row`. -/
theorem commandWordsAreExactlyTheMaskedRows : Obligations.CommandWordsAreExactlyTheMaskedRows := fun _ =>
  ⟨fun ⟨_, h⟩ => row_of_decodeWord h, fun ⟨_, hrow, h⟩ => decodeWord_of_row hrow h⟩

/-- Settles O4: each word and each byte is a literal that the decoder evaluates. -/
theorem writtenOutWordsDecode : Obligations.WrittenOutWordsDecode := by
  refine ⟨?_, ?_, ?_, ?_, ?_, ?_, ?_, ?_, ?_, ?_⟩ <;> decide

/-! ### What is refused -/

namespace Machine

theorem raise_illegalCommand (s : State) : s.raise .illegalCommand = { s with resp := 0x10000000#32 } := by
  rw [← respRaised_illegal]
  rfl

theorem step_undecodable {s : State} {w : Word} {src : Image} {later : List Request} {e : DecodeError}
    (hport : s.port = { code := .word w, src := src } :: later) (hdec : decodeWord w = .error e) :
    step s = .next ((s.accept w src later).raise .illegalCommand) := by
  simp only [step, hport, runWord, State.accept_cmd, hdec, rejectWord]

/-- Settles O6: a word outside every row does not decode (`row_of_decodeWord`), and the step refuses it. -/
theorem illegalWordOnlyWritesResp : Obligations.IllegalWordOnlyWritesResp := by
  intro s w src later hport hno
  cases hdec : decodeWord w with
  | ok i =>
    obtain ⟨row, hrow, h⟩ := row_of_decodeWord hdec
    exact absurd h (hno row hrow)
  | error e =>
    rw [step_undecodable hport hdec, raise_illegalCommand]
    rfl

/-- The refusal that six commands share: their condition fails and nothing of the command is done (R62, R68, R175). -/
theorem refused_of_illegal {legal : Bool} (h : legal = false) (s t : State) :
    (.next (if legal then t else s.raise .illegalCommand) : Host.Outcome State Fault Refusal) =
      .next { s with resp := 0x10000000#32 } := by
  rw [h, raise_illegalCommand]
  rfl

theorem planeLegal_b {t : Topology} (ht : t ≠ .m8x8x2) : planeLegal t .b = false := by simp [planeLegal, ht]

theorem colourLegal_of_two_le {t : Topology} {c : Colour} (ht : t ≠ .m8x8x2) (hc : 2 ≤ c.toNat) : colourLegal t c = false := by
  have hbit : ∀ c : Colour, 2 ≤ c.toNat → c.getLsbD 1 = true := by decide
  rw [colourLegal, hbit c hc]
  simp [ht]

theorem positionLegal_of_out {i : Nat} (hi : i = 0 ∨ 17 ≤ i) : positionLegal i = false := by
  simp only [positionLegal, Bool.and_eq_false_iff, decide_eq_false_iff_not]
  omega

theorem rawByteLegal_of_ne {b : Byte} (h0 : b ≠ 0x00#8) (h1 : b ≠ 0xFF#8) : rawByteLegal b = false := by
  simp [rawByteLegal, h0, h1]

/-- Settles O7: each condition fails, and `refused_of_illegal`. -/
theorem failedFurtherConditionOnlyWritesResp : Obligations.FailedFurtherConditionOnlyWritesResp := fun s =>
  ⟨fun _ _ ht => refused_of_illegal (planeLegal_b ht) s _,
    fun _ _ _ ht hc => refused_of_illegal (colourLegal_of_two_le ht hc) s _,
    fun _ ht hc => refused_of_illegal (colourLegal_of_two_le ht hc) s _,
    fun _ _ hi => refused_of_illegal (positionLegal_of_out hi) s _,
    fun _ _ _ hi => refused_of_illegal (positionLegal_of_out hi) s _,
    fun _ h0 h1 => refused_of_illegal (rawByteLegal_of_ne h0 h1) s _⟩

end Machine

end Sys2Proof
end

section
/-! A pixel's colour by the bits at its mapped locations (spec/41_pixel_ops.md R111), and the bus-side rows as their bus writes
(spec/30_encoding.md R70 to R73). -/

namespace Sys2Proof.Machine

open Sys2Proof

/-! ### PixelRead -/

theorem colourOf_eq_add (a b : Bool) : colourOf a b = (if a then 2#2 else 0#2) + (if b then 1#2 else 0#2) := by
  cases a <;> cases b <;> rfl

theorem ite_readBit (fb : Memory) (i : Nat) (mask : Byte) (c : Colour) :
    (if readBit fb i mask then c else 0#2) = if fbRead fb i &&& mask = 0x00#8 then 0#2 else c := by
  simp [readBit]

/-- Settles O17: `colourOf` of the bits read at the mapped locations; absence is that of the mapper. -/
theorem pixelReadAssemblesTheMappedBits : Obligations.PixelReadAssemblesTheMappedBits := by
  refine fun t fb x y => ⟨?_, fun l ht hl => ?_, fun la lb ht ha hb => ?_⟩
  · rw [pixelRead_eq_none_iff, mapPixel_eq_none_iff]
  · simp [pixelRead, ht, hl, colourOf_eq_add, ite_readBit]
  · subst ht
    simp [pixelRead, ha, hb, colourOf_eq_add, ite_readBit]

/-! ### The bus-side rows -/

/-- The bus-side row of a bus write (R70 to R73). -/
def busSideRow : BusMsg → Instr
  | .oscOn => .oscOn
  | .blink rate => .blinkCmd rate
  | .bright level => .brightCmd level
  | .frame data => .frame data

theorem exec_busSideRow (msg : BusMsg) (s : State) : exec (busSideRow msg) s = .next (s.afterBusWrite msg) := by
  cases msg <;> rfl

theorem blinkByte_eq (rate : BitVec 2) : blinkByte rate = BitVec.ofNat 8 (0x81 + 2 * rate.toNat) := by
  revert rate; decide

theorem brightByte_eq (level : BitVec 4) : brightByte level = BitVec.ofNat 8 (0xE0 + level.toNat) := by
  revert level; decide

/-- A bus write other than a frame, answered ok, leaves the device shadow (R28). -/
theorem devAfter_ok_of_not_frame {msg : BusMsg} (d : Dev) (h : ∀ data, msg ≠ .frame data) : devAfter msg .ok d = d := by
  cases msg with
  | frame data => exact absurd rfl (h data)
  | _ => rfl

/-- Settles O46: a bus-side row is `State.afterBusWrite` of its bus write, and the shadow is `devAfter`. -/
theorem busSideRowsAreTheirBusWrites : Obligations.BusSideRowsAreTheirBusWrites := by
  intro s i bs h
  have hmsg : ∃ msg, busSideRow msg = i ∧ busMsgBytes msg = bs := by
    rcases h with ⟨rfl, rfl⟩ | ⟨rate, rfl, rfl⟩ | ⟨level, rfl, rfl⟩ | ⟨data, rfl, rfl⟩
    · exact ⟨.oscOn, rfl, rfl⟩
    · exact ⟨.blink rate, rfl, by rw [busMsgBytes, blinkByte_eq]⟩
    · exact ⟨.bright level, rfl, by rw [busMsgBytes, brightByte_eq]⟩
    · exact ⟨.frame data, rfl, rfl⟩
  obtain ⟨msg, rfl, rfl⟩ := hmsg
  refine ⟨devAfter msg (sinkAnswer s.sink) s.dev, exec_busSideRow msg s, fun hok data hdata => ?_, fun hok hno => ?_⟩
  · cases msg <;> cases hdata
    rw [hok, devAfter_ok_frame]
  · rw [hok]
    exact devAfter_ok_of_not_frame _ fun data hmsg => hno data (by rw [hmsg, busSideRow])

end Sys2Proof.Machine
end

section
/-! The mapper's laws (spec/40_mapper.md R92 to R100). Each pixel that owns a data bit is found from the mapper's closed form, and the
rules of the topologies are read off it. -/

namespace Sys2Proof.Machine

open Sys2Proof

/-! ### The mapper by position and bit number -/

/-- What it is to map to a location: the pixel is in the domain, and the location is the closed form's. -/
theorem mapPixel_eq_some_iff {t : Topology} {x y : Int} {p : Plane} {l : BitLoc} :
    mapPixel t x y p = some l ↔
      inDomain t x y = true ∧ l = { pos := locPos t x y p, mask := 1#8 <<< locBit t x y } := by
  cases h : inDomain t x y
  · simp [mapPixel_out p h]
  · simp [mapPixel_in p h, eq_comm]

/-- The same for a location given by its bit number, which the mask determines. -/
theorem mapPixel_eq_oneHot_iff {t : Topology} {x y : Int} {p : Plane} {n b : Nat} (hb : b < 8) :
    mapPixel t x y p = some { pos := n, mask := 1#8 <<< b } ↔
      inDomain t x y = true ∧ locPos t x y p = n ∧ locBit t x y = b := by
  rw [mapPixel_eq_some_iff, BitLoc.mk.injEq]
  refine and_congr_right fun h => and_congr eq_comm ⟨fun hm => ?_, fun hm => by rw [hm]⟩
  exact (oneHot_injective hb (locBit_lt h) hm).symm

/-- Below the extents the mapper is the topology's rule (R90). -/
theorem mapPixel_natCast {t : Topology} {x y : Nat} (p : Plane) (hx : x < columns t) (hy : y < rows t) :
    mapPixel t x y p = some (topologyRule t x y p) :=
  if_pos ((inDomain_iff t x y).2 (by omega))

/-- The dual topology delegates to the chained one (R95). -/
theorem mapPixel_m16x8d (x y : Int) (p : Plane) : mapPixel .m16x8d x y p = mapPixel .m16x8c x y p := rfl

/-! ### The pixel that owns a data bit (R100) -/

section Owner

variable {x y : Int} {p : Plane} {r b : Nat} (hr : r < 8) (hb : b < 8)
include hr hb

theorem mapPixel_m8x8_odd_iff :
    mapPixel .m8x8 x y p = some { pos := 2 * r + 1, mask := 1#8 <<< b } ↔ x = (((b + 1) % 8 : Nat) : Int) ∧ y = r := by
  rw [mapPixel_eq_oneHot_iff hb, inDomain_iff]
  simp only [columns, rows, locPos, locBit]
  split <;> omega

theorem mapPixel_m16x8c_odd_iff :
    mapPixel .m16x8c x y p = some { pos := 2 * r + 1, mask := 1#8 <<< b } ↔ x = r ∧ y = b := by
  rw [mapPixel_eq_oneHot_iff hb, inDomain_iff]
  simp only [columns, rows, locPos, locBit]
  split <;> omega

theorem mapPixel_m16x8c_even_iff :
    mapPixel .m16x8c x y p = some { pos := 2 * r + 2, mask := 1#8 <<< b } ↔ x = r + 8 ∧ y = b := by
  rw [mapPixel_eq_oneHot_iff hb, inDomain_iff]
  simp only [columns, rows, locPos, locBit]
  split <;> omega

theorem mapPixel_m8x8x2_odd_iff :
    mapPixel .m8x8x2 x y p = some { pos := 2 * r + 1, mask := 1#8 <<< b } ↔ p = .a ∧ x = r ∧ y = b := by
  rw [mapPixel_eq_oneHot_iff hb, inDomain_iff]
  simp only [columns, rows, locPos, locBit]
  cases p <;> simp <;> omega

theorem mapPixel_m8x8x2_even_iff :
    mapPixel .m8x8x2 x y p = some { pos := 2 * r + 2, mask := 1#8 <<< b } ↔ p = .b ∧ x = r ∧ y = b := by
  rw [mapPixel_eq_oneHot_iff hb, inDomain_iff]
  simp only [columns, rows, locPos, locBit]
  cases p <;> simp <;> omega

end Owner

/-- On M8X8 every position is odd: it is `2 * y + 1`. -/
theorem locPos_m8x8_odd {x y : Int} (p : Plane) (h : inDomain .m8x8 x y = true) : locPos .m8x8 x y p % 2 = 1 := by
  rw [inDomain_iff] at h
  simp only [locPos]
  omega

/-! ### The obligations -/

/-- Settles O13: the location gives position and bit number, and these give the pixel (`loc_injective`). -/
theorem mapperIsInjective : Obligations.MapperIsInjective := by
  intro t x y x' y' p p' l hl hl'
  obtain ⟨hin, rfl⟩ := mapPixel_eq_some_iff.1 hl
  obtain ⟨hin', hpos, hbit⟩ := (mapPixel_eq_oneHot_iff (locBit_lt hin)).1 hl'
  exact loc_injective hin hin' hpos.symm hbit.symm

/-- Settles O14: the owner of each data bit; M8X8 leaves the even positions out since its positions are odd. -/
theorem mapperInverseTable : Obligations.MapperInverseTable := by
  intro x y p r b hr hb
  refine ⟨mapPixel_m8x8_odd_iff hr hb, fun heven => ?_, fun t ht => ?_, mapPixel_m8x8x2_odd_iff hr hb,
    mapPixel_m8x8x2_even_iff hr hb⟩
  · obtain ⟨hin, hpos, -⟩ := (mapPixel_eq_oneHot_iff hb).1 heven
    have hodd := locPos_m8x8_odd p hin
    omega
  · obtain rfl | rfl := ht
    · exact ⟨mapPixel_m16x8c_odd_iff hr hb, mapPixel_m16x8c_even_iff hr hb⟩
    · rw [mapPixel_m16x8d]
      exact ⟨mapPixel_m16x8c_odd_iff hr hb, mapPixel_m16x8c_even_iff hr hb⟩

/-- Settles O8: the mapper is absent exactly when `inDomain` is false, with the extents of each topology. -/
theorem mapperIsAbsentExactlyOutsideTheDomain : Obligations.MapperIsAbsentExactlyOutsideTheDomain := by
  intro t x y p
  rw [mapPixel_eq_none_iff, Bool.eq_false_iff, ne_eq, inDomain_iff, rows_eq]
  cases t <;> simp only [columns, reduceCtorEq, or_false, or_true, if_true, if_false] <;> omega

/-- Settles O9: the pixel owns the bit of R100's table; the rotated column is `(x - 1) % 8`. -/
theorem m8x8MappingRotatesTheColumn : Obligations.M8x8MappingRotatesTheColumn := by
  intro x y p hx hy
  refine ⟨(mapPixel_m8x8_odd_iff hy (by omega)).2 ⟨by omega, rfl⟩, ?_⟩
  have hcol : ((x : Int) - 1) % 8 = if x = 0 then 7 else (x : Int) - 1 := by split <;> omega
  rw [mapPixel_natCast p hx hy, topologyRule, hcol]

/-- Settles O10: the pixel owns the bit of R100's table in either half; the fold is that of `chainedRule`. -/
theorem chainedMappingSwapsAxesAndFolds : Obligations.ChainedMappingSwapsAxesAndFolds := by
  intro x y p hx hy
  refine ⟨fun hleft => (mapPixel_m16x8c_odd_iff (by omega) hy).2 ⟨rfl, rfl⟩,
    fun hright => (mapPixel_m16x8c_even_iff (by omega) hy).2 ⟨by omega, rfl⟩, ?_⟩
  have hhalf : (8 : Int) ≤ x ↔ 8 ≤ x := by omega
  rw [mapPixel_natCast p hx hy, topologyRule, chainedRule]
  by_cases h : 8 ≤ x <;> simp [hhalf, h]

/-- Settles O11: the delegation of R95, and the owners of R100's table on the bi-colour topology. -/
theorem dualAndBicolourMappings : Obligations.DualAndBicolourMappings :=
  ⟨mapPixel_m16x8d, fun _ _ hx hy =>
    ⟨(mapPixel_m8x8x2_odd_iff hx hy).2 ⟨rfl, rfl, rfl⟩, (mapPixel_m8x8x2_even_iff hx hy).2 ⟨rfl, rfl, rfl⟩⟩⟩

/-- Settles O12: the ranges of the closed form's position and bit number. -/
theorem mapperStaysInTheDataBytes : Obligations.MapperStaysInTheDataBytes := by
  intro t x y p l hl
  obtain ⟨hin, rfl⟩ := mapPixel_eq_some_iff.1 hl
  obtain ⟨hlow, hhigh⟩ := locPos_range p hin
  refine ⟨hlow, hhigh, ⟨locBit t x y, locBit_lt hin, rfl⟩, ?_⟩
  rintro rfl
  exact locPos_m8x8_odd p hin

theorem exec_map_absent {s : State} {x y : Int} {p : Plane} (hp : planeLegal s.topo p = true)
    (h : mapPixel s.topo x y p = none) : exec (.map x y p) s = .next s.complete := by
  simp [exec, execMap, hp, h]

theorem exec_map_present {s : State} {x y : Int} {p : Plane} {l : BitLoc} (hp : planeLegal s.topo p = true)
    (h : mapPixel s.topo x y p = some l) : exec (.map x y p) s = .next (s.present (BitVec.ofNat 8 l.pos) l.mask) := by
  simp [exec, execMap, hp, h]

/-- A position that fits a byte is reported whole (R67). -/
theorem respPresent_ofNat {pos : Nat} (mask : Byte) (h : pos < 256) :
    respPresent (BitVec.ofNat 8 pos) mask = presentWord pos mask.toNat := by
  rw [respPresent_eq, BitVec.toNat_ofNat, Nat.mod_eq_of_lt h, presentWord]

/-- Settles O15: MAP ends in `complete` or `present`; a position of the data bytes fits P1. -/
theorem mapCommandReportsTheLocation : Obligations.MapCommandReportsTheLocation := by
  intro s x y p hp
  have hlegal : planeLegal s.topo p = true := by simpa [planeLegal] using hp
  refine ⟨fun hnone => ?_, fun l hl => ?_⟩
  · rw [exec_map_absent hlegal hnone, State.complete, respNothing_eq, State.withResp]
  · obtain ⟨-, hhigh, -⟩ := mapperStaysInTheDataBytes s.topo x y p l hl
    rw [exec_map_present hlegal hl, State.present, respPresent_ofNat l.mask (by omega), State.withResp]

end Sys2Proof.Machine
end

section
/-! The pixel commands GETP, SETP, FILL and LOADIMG (spec/41_pixel_ops.md R110 to R119): what each leaves in FB, and the frame that it
sends. -/

namespace Sys2Proof.Machine

open Sys2Proof

/-! ### A flush that ends a command -/

/-- After the bus write of a frame and the response word of its answer, exactly that frame has been sent (R51, R154). -/
theorem sentFrame_afterFrame {s : State} {r : Word} (hr : r = answerWord (sinkAnswer s.sink)) :
    SentFrame s ((s.afterBusWrite s.frameMsg).withResp r) := by
  subst hr
  refine ⟨devAfter s.frameMsg (sinkAnswer s.sink) s.dev, ?_, fun hok => ?_⟩
  · rw [frameOf, ← frameBytes_fbData]
    rfl
  · rw [hok, State.frameMsg, devAfter_ok_frame]

theorem flushThen_ok {s : State} (goOn : State → State) (h : sinkAnswer s.sink = .ok) :
    s.flushThen goOn = goOn (s.afterBusWrite s.frameMsg) := send_ok s.frameMsg goOn h

theorem flushThen_err {s : State} {e : BitVec 16} (goOn : State → State) (h : sinkAnswer s.sink = .err e) :
    s.flushThen goOn = (s.afterBusWrite s.frameMsg).raise (.transportError e) := send_err s.frameMsg goOn h

theorem flushAndComplete_ok {s : State} (h : sinkAnswer s.sink = .ok) :
    s.flushAndComplete = (s.afterBusWrite s.frameMsg).complete := flushThen_ok State.complete h

theorem flushAndComplete_err {s : State} {e : BitVec 16} (h : sinkAnswer s.sink = .err e) :
    s.flushAndComplete = (s.afterBusWrite s.frameMsg).raise (.transportError e) := flushThen_err State.complete h

theorem sentFrame_flushAndComplete (s : State) : SentFrame s s.flushAndComplete := by
  cases h : sinkAnswer s.sink with
  | ok =>
    rw [flushAndComplete_ok h]
    exact sentFrame_afterFrame (by rw [h, respNothing_eq, answerWord])
  | err e =>
    rw [flushAndComplete_err h]
    exact sentFrame_afterFrame (by rw [h, respRaised_transport, answerWord])

@[simp] theorem flushAndComplete_fb (s : State) : s.flushAndComplete.fb = s.fb := by
  obtain ⟨d, ht, -⟩ := sentFrame_flushAndComplete s
  rw [ht]

@[simp] theorem flushAndComplete_resp (s : State) : s.flushAndComplete.resp = answerWord (sinkAnswer s.sink) := by
  obtain ⟨d, ht, -⟩ := sentFrame_flushAndComplete s
  rw [ht]

/-- The flush that ends a command overwrites RESP, whatever it held. -/
theorem flushAndComplete_withResp (s : State) (r : Word) : (s.withResp r).flushAndComplete = s.flushAndComplete := by
  cases h : sinkAnswer s.sink with
  | ok => exact (flushAndComplete_ok (s := s.withResp r) h).trans (flushAndComplete_ok h).symm
  | err e => exact (flushAndComplete_err (s := s.withResp r) h).trans (flushAndComplete_err h).symm

/-- A flush answered `err(e)` ends the command, whatever was to follow (R173). -/
theorem flushThen_eq_flushAndComplete {s : State} {e : BitVec 16} (goOn : State → State) (h : sinkAnswer s.sink = .err e) :
    s.flushThen goOn = s.flushAndComplete := by
  rw [flushThen_err goOn h, flushAndComplete_err h]

/-- A flush answered ok and then a store and a flush: since the last flush writes RESP, they do what they do after a command that ended
with the first. -/
theorem flushThen_storeAndFlush {s : State} (f : Memory → Memory) (h : sinkAnswer s.sink = .ok) :
    (s.flushThen fun u => (u.withFb (f u.fb)).flushAndComplete) =
      (s.flushAndComplete.withFb (f s.flushAndComplete.fb)).flushAndComplete := by
  rw [flushThen_ok _ h, flushAndComplete_ok h]
  exact (flushAndComplete_withResp _ respNothing).symm

theorem answerWord_err_ne_zero (e : BitVec 16) : answerWord (.err e) ≠ 0x00000000#32 := by
  rw [answerWord, ← respRaised_transport]
  exact respRaised_ne_zero _

/-! ### The topology, the domain and the colours stored -/

/-- No instruction changes TOPO (R22). -/
theorem topo_of_exec {i : Instr} {s t : State} (h : exec i s = .next t) : t.topo = s.topo := by
  obtain ⟨u, hu, htopo, -⟩ := strapsAndHostSideNeverChange.1 i s
  cases hu.symm.trans h
  exact htopo

theorem inDomain_of_mapPixel_ne {t : Topology} {x y : Int} {p : Plane} (h : mapPixel t x y p ≠ none) : inDomain t x y = true := by
  simpa [mapPixel_eq_none_iff] using h

theorem colourLegal_iff {t : Topology} {c : Colour} : colourLegal t c = true ↔ t = .m8x8x2 ∨ c.getLsbD 1 = false := by
  simp [colourLegal]

theorem colourLegal_of_bit1 {t : Topology} {c : Colour} (ht : t ≠ .m8x8x2) (hc : c.getLsbD 1 = true) :
    colourLegal t c = false := by
  rw [colourLegal, hc]
  simp [ht]

/-- A legal colour is stored whole (R64, R65). -/
theorem storedColour_of_legal {t : Topology} {c : Colour} (h : t = .m8x8x2 ∨ c.getLsbD 1 = false) : storedColour t c = c := by
  have hmono : ∀ c : Colour, c.getLsbD 1 = false → c &&& 1#2 = c := by decide
  rw [storedColour]
  split
  · rfl
  · next ht => exact hmono c (h.resolve_left ht)

/-! ### GETP -/

/-- The word of a colour (R67, R110). -/
theorem respPresent_colour (c : Colour) : respPresent 0x00#8 (c.setWidth 8) = presentWord 0 c.toNat := by
  revert c; decide

theorem exec_getp_present {s : State} {x y : Int} {c : Colour} (h : pixelRead s.topo s.fb x y = some c) :
    exec (.getp x y) s = .next { s with resp := presentWord 0 c.toNat } := by
  rw [← respPresent_colour]
  simp [exec, execGetp, h, State.present, State.withResp]

/-- The completed command that returns nothing writes RESP only (R67). -/
theorem complete_eq (s : State) : s.complete = { s with resp := 0x00000000#32 } := by
  rw [← respNothing_eq]
  rfl

/-- Settles O16: GETP ends in `complete` or in `present` of the colour. -/
theorem getpReturnsThePixelColour : Obligations.GetpReturnsThePixelColour := by
  refine fun s x y => ⟨fun hnone => ?_, fun c hc => exec_getp_present hc⟩
  rw [← complete_eq]
  simp [exec, execGetp, hnone]

/-! ### PixelWrite -/

/-- The plane A positions are odd and the plane B positions even on M8X8X2 (R96). -/
theorem locPos_m8x8x2_mod {x y : Int} (h : inDomain .m8x8x2 x y = true) (p : Plane) :
    locPos .m8x8x2 x y p % 2 = if p = .a then 1 else 0 := by
  rw [inDomain_iff] at h
  cases p <;> simp only [locPos, reduceCtorEq, if_true, if_false] <;> omega

theorem locPos_planes_ne {x y : Int} (h : inDomain .m8x8x2 x y = true) :
    locPos .m8x8x2 x y .a ≠ locPos .m8x8x2 x y .b := fun he =>
  absurd (locPos_m8x8x2_mod h .b) (by rw [← he, locPos_m8x8x2_mod h .a]; decide)

/-- The byte at a mapped location after WriteBit (R111): the position takes the write, and R111 writes `~m` as `0xFF - m`. -/
theorem fbRead_writeBit_mapped {t : Topology} {x y : Int} {p : Plane} {l : BitLoc} (hl : mapPixel t x y p = some l) (fb : Memory)
    (v : Bool) (k : Nat) :
    fbRead (writeBit fb l.pos l.mask v) k =
      if k = l.pos then (if v then fbRead fb k ||| l.mask else fbRead fb k &&& (0xFF#8 - l.mask)) else fbRead fb k := by
  obtain ⟨hlow, hhigh, -⟩ := mapperStaysInTheDataBytes t x y p l hl
  have hnot : 0xFF#8 - l.mask = ~~~l.mask := BitVec.allOnes_sub_eq_not l.mask
  rw [fbRead_writeBit, hnot]
  by_cases hk : k = l.pos
  · simp [hk, hlow, hhigh]
  · simp [hk]

/-- Settles O19: one WriteBit, or two at different positions (`locPos_planes_ne`), each at a mapped location. -/
theorem pixelWriteStoresOnlyThePixelBits : Obligations.PixelWriteStoresOnlyThePixelBits := by
  refine fun t fb x y c => ⟨?_, fun l m ht hl hm k => ?_, fun la lb m ht ha hb hm k => ?_⟩
  · rw [pixelWrite_eq_none_iff, mapPixel_eq_none_iff]
  · obtain rfl : writeBit fb l.pos l.mask (planeBBit c) = m := by simpa [pixelWrite, ht, hl] using hm
    exact fbRead_writeBit_mapped hl fb (planeBBit c) k
  · subst ht
    obtain rfl : writeBit (writeBit fb la.pos la.mask (planeABit c)) lb.pos lb.mask (planeBBit c) = m := by
      simpa [pixelWrite, ha, hb] using hm
    have hne : la.pos ≠ lb.pos := by
      obtain ⟨hin, rfl⟩ := mapPixel_eq_some_iff.1 ha
      obtain ⟨-, rfl⟩ := mapPixel_eq_some_iff.1 hb
      exact locPos_planes_ne hin
    rw [fbRead_writeBit_mapped hb, fbRead_writeBit_mapped ha]
    by_cases hk : k = la.pos
    · simp [hk, hne, planeABit]
    · simp [hk, planeBBit]

/-- A write of one of a pixel's bits leaves every other pixel (R99). -/
theorem pixelRead_writeBit_other {t : Topology} {x y x' y' : Int} (h : inDomain t x y = true) (hne : (x', y') ≠ (x, y))
    (fb : Memory) (p : Plane) (v : Bool) :
    pixelRead t (writeBit fb (locPos t x y p) (1#8 <<< locBit t x y) v) x' y' = pixelRead t fb x' y' := by
  cases h' : inDomain t x' y' with
  | false => rw [pixelRead_out _ h', pixelRead_out _ h']
  | true =>
    have hbit : ∀ p', fbBit (writeBit fb (locPos t x y p) (1#8 <<< locBit t x y) v) (locPos t x' y' p') (locBit t x' y') =
        fbBit fb (locPos t x' y' p') (locBit t x' y') := fun p' => by
      rw [fbBit_writeBit _ _ _ _ _ (locBit_lt h'), oneHot_getLsbD (locBit_lt h), if_neg]
      rintro ⟨⟨hpos, -⟩, hb⟩
      obtain ⟨hx, hy, -⟩ := loc_injective h' h hpos (of_decide_eq_true hb)
      exact hne (by rw [hx, hy])
    rw [pixelRead_in _ h', pixelRead_in _ h', hbit, hbit]

theorem pixelRead_pixelWrite_other {t : Topology} {x y x' y' : Int} {fb m : Memory} {c : Colour} (hne : (x', y') ≠ (x, y))
    (hm : pixelWrite t fb x y c = some m) : pixelRead t m x' y' = pixelRead t fb x' y' := by
  cases h : inDomain t x y with
  | false => rw [pixelWrite_out fb c h] at hm; cases hm
  | true =>
    rw [pixelWrite_in fb c h, Option.some.injEq] at hm
    subst hm
    split
    · rw [pixelRead_writeBit_other h hne, pixelRead_writeBit_other h hne]
    · rw [pixelRead_writeBit_other h hne]

/-! ### SETP -/

theorem oneFrame_iff {t : Topology} {f : SetpFrames} : (t ≠ .m8x8x2 ∨ f = .one) ↔ ¬(t = .m8x8x2 ∧ f = .two) := by
  cases f <;> simp

/-- SETP with one frame, in the domain (R112). -/
theorem exec_setp_oneFrame {s : State} {x y : Int} {c : Colour} {m : Memory} (hc : colourLegal s.topo c = true)
    (hone : s.topo ≠ .m8x8x2 ∨ s.setpFrames = .one) (hm : pixelWrite s.topo s.fb x y c = some m) :
    exec (.setp x y c) s = .next (s.withFb m).flushAndComplete := by
  simp [exec, execSetp, setpOneFrame, hc, oneFrame_iff.1 hone, hm]

/-- SETP with a frame after each plane, in the domain (R113). -/
theorem exec_setp_twoFrames {s : State} {x y : Int} {la lb : BitLoc} (c : Colour) (ht : s.topo = .m8x8x2)
    (hf : s.setpFrames = .two) (ha : mapPixel .m8x8x2 x y .a = some la) (hb : mapPixel .m8x8x2 x y .b = some lb) :
    exec (.setp x y c) s = .next (setpTwoFrames la lb c s) := by
  simp [exec, execSetp, colourLegal, ht, hf, ha, hb]

section TwoFrames

variable (la lb : BitLoc) (c : Colour) {s t : State}

/-- The frame after plane A is answered `err(e)`: plane B is not written. -/
theorem setpTwoFrames_err {e : BitVec 16} (h : sinkAnswer s.sink = .err e) :
    setpTwoFrames la lb c s = (s.withFb (writeBit s.fb la.pos la.mask (planeABit c))).flushAndComplete :=
  flushThen_eq_flushAndComplete (s := s.withFb _) _ h

/-- The frame after plane A is answered ok: plane B follows it as a command of its own would. -/
theorem setpTwoFrames_ok (h : sinkAnswer s.sink = .ok)
    (ht : t = (s.withFb (writeBit s.fb la.pos la.mask (planeABit c))).flushAndComplete) :
    setpTwoFrames la lb c s = (t.withFb (writeBit t.fb lb.pos lb.mask (planeBBit c))).flushAndComplete := by
  subst ht
  exact flushThen_storeAndFlush (s := s.withFb _) (writeBit · lb.pos lb.mask (planeBBit c)) h

end TwoFrames

/-- SETP outside the domain, with either frame count (R112). -/
theorem exec_setp_absent {s : State} {x y : Int} {c : Colour} (hc : colourLegal s.topo c = true)
    (h : inDomain s.topo x y = false) : exec (.setp x y c) s = .next s.complete := by
  simp [exec, execSetp, setpOneFrame, hc, mapPixel_out _ h, pixelWrite_out _ _ h]

theorem exec_setp_illegal {s : State} {c : Colour} (x y : Int) (hc : colourLegal s.topo c = false) :
    exec (.setp x y c) s = .next { s with resp := 0x10000000#32 } := refused_of_illegal hc s _

/-- Settles O18: the colour is illegal, the pixel in the domain, or the pixel out of it. -/
theorem setpWritesThePixelAndSendsOneFrame : Obligations.SetpWritesThePixelAndSendsOneFrame := by
  refine fun s x y c => ⟨fun ht hc => ?_, fun hc hone m hm => ?_, fun hc hnone => ?_⟩
  · exact exec_setp_illegal x y (colourLegal_of_bit1 ht hc)
  · exact ⟨_, exec_setp_oneFrame (colourLegal_iff.2 hc) hone hm, sentFrame_flushAndComplete (s.withFb m)⟩
  · rw [exec_setp_absent (colourLegal_iff.2 hc) (pixelWrite_eq_none_iff.1 hnone), complete_eq]

/-- Settles O20: the first flush ends the command or, after its frame, plane B is written and flushed. -/
theorem setpSendsAFrameAfterEachPlane : Obligations.SetpSendsAFrameAfterEachPlane := by
  intro s x y c la lb ht hf ha hb
  rw [exec_setp_twoFrames c ht hf ha hb]
  have hplaneA := sentFrame_flushAndComplete (s.withFb (writeBit s.fb la.pos la.mask (planeABit c)))
  refine ⟨fun e herr => ⟨_, rfl, ?_⟩, fun hok => ⟨_, _, hplaneA, rfl, ?_⟩⟩
  · rw [setpTwoFrames_err la lb c herr]
    exact hplaneA
  · rw [setpTwoFrames_ok la lb c hok rfl]
    exact sentFrame_flushAndComplete (State.withFb _ _)

/-- What SETP of a legal colour leaves in FB, in the domain (R112, R113): PixelWrite's buffer, or, when the frame after plane A failed,
the buffer with plane A alone. -/
theorem exec_setp_fb {s : State} {x y : Int} {c : Colour} (h : inDomain s.topo x y = true)
    (hc : colourLegal s.topo c = true) :
    ∃ t, exec (.setp x y c) s = .next t ∧
      (pixelWrite s.topo s.fb x y c = some t.fb ∨
        (s.topo = .m8x8x2 ∧ s.setpFrames = .two ∧ t.resp ≠ 0x00000000#32 ∧
          t.fb = writeBit s.fb (locPos s.topo x y .a) (1#8 <<< locBit s.topo x y) (planeABit c))) := by
  by_cases htwo : s.topo = .m8x8x2 ∧ s.setpFrames = .two
  · obtain ⟨ht, hf⟩ := htwo
    have h2 := ht ▸ h
    refine ⟨_, exec_setp_twoFrames c ht hf (mapPixel_in .a h2) (mapPixel_in .b h2), ?_⟩
    rw [ht]
    cases hans : sinkAnswer s.sink with
    | ok =>
      left
      rw [setpTwoFrames_ok _ _ c hans rfl, pixelWrite_in s.fb c h2]
      simp
    | err e =>
      right
      rw [setpTwoFrames_err _ _ c hans]
      simp [hf, hans, answerWord_err_ne_zero]
  · refine ⟨_, exec_setp_oneFrame hc (oneFrame_iff.2 htwo) (pixelWrite_in s.fb c h), .inl ?_⟩
    rw [pixelWrite_in s.fb c h, flushAndComplete_fb, State.withFb_fb]

/-- Settles O21: unless the frame after plane A failed, FB is PixelWrite's, which reads as the colour at (x, y). -/
theorem setpThenGetpReturnsTheColour : Obligations.SetpThenGetpReturnsTheColour := by
  intro s x y c hmap hc
  have hin := inDomain_of_mapPixel_ne hmap
  obtain ⟨t, hexec, hfb⟩ := exec_setp_fb hin (colourLegal_iff.2 hc)
  refine ⟨t, hexec, fun hdone => exec_getp_present ?_⟩
  rcases hfb with hm | ⟨ht, hf, hresp, -⟩
  · rw [topo_of_exec hexec, pixelRead_pixelWrite hin hin hm, if_pos ⟨rfl, rfl⟩, storedColour_of_legal hc]
  · simp [ht, hf, hresp] at hdone

/-- Settles O22: what SETP stores are bits of the pixel at (x, y), or it stores nothing. -/
theorem setpKeepsEveryOtherPixel : Obligations.SetpKeepsEveryOtherPixel := by
  intro s x y x' y' c hne
  cases hc : colourLegal s.topo c with
  | false => exact ⟨_, exec_setp_illegal x y hc, rfl⟩
  | true =>
    cases hin : inDomain s.topo x y with
    | false => exact ⟨_, exec_setp_absent hc hin, rfl⟩
    | true =>
      obtain ⟨t, hexec, hfb⟩ := exec_setp_fb hin hc
      refine ⟨t, hexec, ?_⟩
      rw [topo_of_exec hexec]
      rcases hfb with hm | ⟨-, -, -, ha⟩
      · exact pixelRead_pixelWrite_other hne hm
      · rw [ha]
        exact pixelRead_writeBit_other hin hne s.fb .a _

/-! ### FILL -/

/-- The word of FILL (R62, R114). -/
theorem encode_fill (c : Colour) : encode (.fill c) = .word (BitVec.ofNat 32 (0x40000000 + 0x10000 * c.toNat)) := by
  revert c; decide

theorem exec_fill {s : State} {c : Colour} (hc : colourLegal s.topo c = true) :
    exec (.fill c) s = .next (s.withFb (fillMemory s.topo c s.fb)).flushAndComplete := by
  simp [exec, execFill, hc]

/-- A data byte that FILL leaves (R114). -/
theorem fbRead_fillMemory (t : Topology) (c : Colour) (fb : Memory) {k : Nat} (h1 : 1 ≤ k) (h16 : k ≤ 16) :
    fbRead (fillMemory t c fb) k = fillByte (if t = .m8x8x2 ∧ k % 2 = 1 then planeABit c else planeBBit c) := by
  rw [fillMemory]
  by_cases ht : t = .m8x8x2
  · rw [if_pos ht, fbRead_fillPlanes, if_pos ⟨h1, h16⟩]
    by_cases hodd : k % 2 = 1 <;> simp [ht, hodd]
  · rw [if_neg ht, fbRead_fillAll, if_pos ⟨h1, h16⟩]
    simp [ht]

/-- Settles O23: the encoded word decodes, and FILL is a flush of the filled buffer or a refusal. -/
theorem fillStoresEveryDataByte : Obligations.FillStoresEveryDataByte := by
  refine fun s c => ⟨?_, fun ht hc => refused_of_illegal (colourLegal_of_bit1 ht hc) s _, fun hc => ?_⟩
  · have hdec := decode_encode (i := .fill c) rfl
    rwa [encode_fill] at hdec
  · exact ⟨fillMemory s.topo c s.fb, _, exec_fill (colourLegal_iff.2 hc), sentFrame_flushAndComplete (s.withFb _),
      fbRead_zero _, fun k h1 h16 => fbRead_fillMemory s.topo c s.fb h1 h16⟩

theorem fillByte_getLsbD (v : Bool) {b : Nat} (hb : b < 8) : (fillByte v).getLsbD b = v := by
  cases v
  · simp [fillByte]
  · rw [fillByte, if_pos rfl]
    interval_cases b <;> rfl

theorem pixelRead_fillMemory {t : Topology} {x y : Int} (c : Colour) (fb : Memory) (h : inDomain t x y = true) :
    pixelRead t (fillMemory t c fb) x y = some (storedColour t c) := by
  have hbit : ∀ p, fbBit (fillMemory t c fb) (locPos t x y p) (locBit t x y) =
      if t = .m8x8x2 ∧ locPos t x y p % 2 = 1 then planeABit c else planeBBit c := fun p => by
    obtain ⟨hlow, hhigh⟩ := locPos_range p h
    rw [fbBit, fbRead_fillMemory t c fb hlow hhigh, fillByte_getLsbD _ (locBit_lt h)]
  rw [pixelRead_in _ h, hbit, hbit]
  by_cases ht : t = .m8x8x2
  · subst ht
    simp [locPos_m8x8x2_mod h, storedColour, colourOf_bits]
  · simp [ht, storedColour, colourOf_mono]

/-- Settles O24: the filled buffer's pixels read as the colour, and the flush leaves the buffer. -/
theorem filledPixelsReadBack : Obligations.FilledPixelsReadBack := by
  intro s c x y hc hmap
  have hexec := exec_fill (colourLegal_iff.2 hc)
  refine ⟨_, hexec, exec_getp_present ?_⟩
  rw [topo_of_exec hexec, flushAndComplete_fb, State.withFb_fb, pixelRead_fillMemory c s.fb (inDomain_of_mapPixel_ne hmap),
    storedColour_of_legal hc]

/-! ### LOADIMG -/

theorem exec_loadimg {s : State} {w h : Nat} (hsize : sizeMatches s.topo w h = true) :
    exec (.loadimg w h) s = .next (s.withFb (writeGrid s.topo (sample s.src) s.fb)).flushAndComplete := by
  simp [exec, execLoadimg, hsize]

theorem columns_eq (t : Topology) : columns t = if t = .m16x8c ∨ t = .m16x8d then 16 else 8 := by cases t <;> rfl

/-- Settles O25: LOADIMG flushes the buffer that WriteGrid of the samples leaves. -/
theorem loadimgStoresEverySample : Obligations.LoadimgStoresEverySample := by
  rintro s w h hw rfl
  have hsize : sizeMatches s.topo w 8 = true := by simp [sizeMatches, columns_eq, hw]
  refine ⟨_, _, exec_loadimg hsize, sentFrame_flushAndComplete (s.withFb _), fun x y hmap => ?_, fun ht r => ?_⟩
  · rw [pixelRead_writeGrid _ _ (inDomain_of_mapPixel_ne hmap), storedColour]
  · rw [ht, fbRead_writeGrid_even]

end Sys2Proof.Machine
end

section
/-! One unit shift (spec/42_shift.md R131 to R135, R141): each pixel from the pixel it comes from, and from that the bits and the bytes
of the buffer. -/

namespace Sys2Proof.Machine

open Sys2Proof

/-! ### The pixel that a pixel comes from -/

/-- How far a unit shift moves a pixel along the row. -/
def Direction.stepX : Direction → Int
  | .right => 1
  | .left => -1
  | .down => 0
  | .up => 0

/-- How far a unit shift moves a pixel along the column. -/
def Direction.stepY : Direction → Int
  | .right => 0
  | .left => 0
  | .down => 1
  | .up => -1

/-- Whether a unit shift fills the pixel from inside the grid, not over the edge (R132 to R135). -/
def fromInside (t : Topology) (d : Direction) (x y : Int) : Bool := inDomain t (x - d.stepX) (y - d.stepY)

/-- The column that a unit shift with wrap fills column `x` from. -/
def sourceX (t : Topology) (d : Direction) (x : Int) : Int := (x - d.stepX) % (columns t : Int)

/-- The row that a unit shift with wrap fills row `y` from. -/
def sourceY (t : Topology) (d : Direction) (y : Int) : Int := (y - d.stepY) % (rows t : Int)

theorem inDomain_emod (t : Topology) (x y : Int) : inDomain t (x % (columns t : Int)) (y % (rows t : Int)) = true := by
  rw [inDomain_iff, rows_eq]
  rcases columns_cases t with hc | hc <;> rw [hc] <;> omega

theorem inDomain_source (t : Topology) (d : Direction) (x y : Int) : inDomain t (sourceX t d x) (sourceY t d y) = true :=
  inDomain_emod t _ _

/-- Modulo the extents an in-domain pixel is itself. -/
theorem emod_of_inDomain {t : Topology} {x y : Int} (h : inDomain t x y = true) :
    x % (columns t : Int) = x ∧ y % (rows t : Int) = y := by
  obtain ⟨hx0, hx, hy0, hy⟩ := (inDomain_iff t x y).1 h
  exact ⟨Int.emod_eq_of_lt hx0 hx, Int.emod_eq_of_lt hy0 hy⟩

/-- A pixel taken from inside if `p`, over the edge with wrap, and Off without, with the source of each branch named alike. -/
theorem ite_source (p : Prop) [Decidable p] (wrap inside : Bool) (old : Int → Int → Colour) {x y xi yi xe ye : Int}
    (hp : p ↔ inside = true) (hin : p → x = xi ∧ y = yi) (hedge : ¬p → x = xe ∧ y = ye) :
    (if p then old xi yi else if wrap then old xe ye else Colour.off) = if wrap || inside then old x y else Colour.off := by
  by_cases hc : p
  · rw [if_pos hc, hp.1 hc, Bool.or_true, if_pos rfl, (hin hc).1, (hin hc).2]
  · rw [if_neg hc, Bool.eq_false_iff.2 (mt hp.2 hc), Bool.or_false, (hedge hc).1, (hedge hc).2]

/-- The four functions of R132 to R135 as one: the source's colour, or Off where nothing moves in from inside and there is no wrap. -/
theorem shiftedGrid_eq {t : Topology} {x y : Int} (d : Direction) (wrap : Bool) (old : Int → Int → Colour)
    (h : inDomain t x y = true) :
    shiftedGrid t d wrap old x y =
      if wrap || fromInside t d x y then old (sourceX t d x) (sourceY t d y) else Colour.off := by
  rw [inDomain_iff, rows_eq] at h
  -- each direction is an instance of `ite_source`; the conditions left are arithmetic modulo the extents
  cases d <;> refine ite_source _ wrap _ old ?_ ?_ ?_
  all_goals simp only [fromInside, sourceX, sourceY, inDomain_iff, rows_eq, Direction.stepX, Direction.stepY]
  all_goals rcases columns_cases t with hC | hC <;> simp only [hC] at h ⊢ <;> omega

/-- A pixel after a unit shift, the old grid read once (R131). -/
theorem pixelRead_unitShift {t : Topology} {x y : Int} (d : Direction) (wrap : Bool) (fb : Memory) (h : inDomain t x y = true) :
    pixelRead t (unitShift t wrap fb d) x y = some (shiftedGrid t d wrap (gridOf t fb) x y) := by
  rw [pixelRead_eq_gridOf h, gridOf_unitShift d wrap fb h]

/-- The colours of a pixel's branches as the pixels read them, the conditions spelt in either way. -/
theorem some_ite_gridOf {t : Topology} {xi yi xe ye : Int} {p q : Prop} [Decidable p] [Decidable q] (wrap : Bool) (fb : Memory)
    (hpq : p ↔ q) (hin : q → inDomain t xi yi = true) (hedge : inDomain t xe ye = true) :
    some (if p then gridOf t fb xi yi else if wrap then gridOf t fb xe ye else Colour.off) =
      if q then pixelRead t fb xi yi else if wrap then pixelRead t fb xe ye else some Colour.off := by
  by_cases hq : q
  · rw [if_pos (hpq.2 hq), if_pos hq, pixelRead_eq_gridOf (hin hq)]
  · rw [if_neg (hq ∘ hpq.1), if_neg hq, pixelRead_eq_gridOf hedge]
    cases wrap <;> rfl

/-- Settles O27: the two horizontal functions of the grid, read pixel by pixel. -/
theorem horizontalUnitShiftMovesRows : Obligations.HorizontalUnitShiftMovesRows := by
  refine ⟨fun dx => ⟨fun h => if_pos h, fun h => if_neg (by omega)⟩, fun t wrap fb x y hx hy => ?_⟩
  have hd : inDomain t x y = true := (inDomain_iff t x y).2 (by omega)
  rw [pixelRead_unitShift _ wrap fb hd, pixelRead_unitShift _ wrap fb hd]
  constructor <;>
    exact some_ite_gridOf wrap fb (by omega) (fun _ => (inDomain_iff ..).2 (by omega)) ((inDomain_iff ..).2 (by omega))

/-- Settles O28: the two vertical functions of the grid, read pixel by pixel. -/
theorem verticalUnitShiftMovesColumns : Obligations.VerticalUnitShiftMovesColumns := by
  refine ⟨fun dy => ⟨fun h => if_pos h, fun h => if_neg (by omega)⟩, fun t wrap fb x y hx hy => ?_⟩
  have hd : inDomain t x y = true := (inDomain_iff t x y).2 (by omega)
  rw [pixelRead_unitShift _ wrap fb hd, pixelRead_unitShift _ wrap fb hd]
  constructor <;>
    exact some_ite_gridOf wrap fb (by omega) (fun _ => (inDomain_iff ..).2 (by omega)) ((inDomain_iff ..).2 (by omega))

/-! ### Bits and bytes (R141) -/

theorem planeABit_colourOf (a b : Bool) : planeABit (colourOf a b) = a := by revert a b; decide

theorem planeBBit_colourOf (a b : Bool) : planeBBit (colourOf a b) = b := by revert a b; decide

/-- Only the bi-colour topology tells the planes apart (R93 to R96). -/
theorem locPos_mono {t : Topology} (ht : t ≠ .m8x8x2) (x y : Int) (p : Plane) : locPos t x y p = locPos t x y .a := by
  cases t with
  | m8x8x2 => exact absurd rfl ht
  | _ => rfl

/-- The bit of FB at a pixel's location is the colour's bit for that plane. -/
theorem fbBit_loc {t : Topology} {x y : Int} (fb : Memory) (p : Plane) (h : inDomain t x y = true) :
    fbBit fb (locPos t x y p) (locBit t x y) = planeBit p t (gridOf t fb x y) := by
  rw [gridOf, pixelRead_in fb h, Option.getD_some, planeBit, planeABit_colourOf, planeBBit_colourOf]
  by_cases ht : t = .m8x8x2
  · cases p <;> simp [ht]
  · simp [ht, locPos_mono ht x y p]

theorem planeBit_off (p : Plane) (t : Topology) : planeBit p t Colour.off = false := by
  rw [planeBit]
  split <;> rfl

/-- A bit of FB after a unit shift: the bit of the pixel it comes from, or 0 at the edge without wrap. -/
theorem fbBit_unitShift {t : Topology} {x y : Int} (d : Direction) (wrap : Bool) (fb : Memory) (p : Plane) (h : inDomain t x y = true) :
    fbBit (unitShift t wrap fb d) (locPos t x y p) (locBit t x y) =
      ((wrap || fromInside t d x y) &&
        fbBit fb (locPos t (sourceX t d x) (sourceY t d y) p) (locBit t (sourceX t d x) (sourceY t d y))) := by
  rw [fbBit_loc _ p h, gridOf_unitShift d wrap fb h, shiftedGrid_eq d wrap _ h, fbBit_loc _ p (inDomain_source t d x y)]
  cases wrap || fromInside t d x y
  · exact planeBit_off p t
  · rfl

/-- Bit `b` at position `k` belongs to a pixel (x, y) that the unit shift fills from a pixel (x', y') of the same plane, whose bit is
`b'` at `k'`; `inside` says that the move stays inside the grid. -/
def Feeds (t : Topology) (d : Direction) (k b k' b' : Nat) (inside : Prop) : Prop :=
  ∃ x y x' y' p, inDomain t x y = true ∧ sourceX t d x = x' ∧ sourceY t d y = y' ∧ (fromInside t d x y = true ↔ inside) ∧
    (locPos t x y p = k ∧ locBit t x y = b) ∧ locPos t x' y' p = k' ∧ locBit t x' y' = b'

theorem Feeds.fbBit {t : Topology} {d : Direction} {k b k' b' : Nat} {inside : Prop} [Decidable inside]
    (h : Feeds t d k b k' b' inside) (wrap : Bool) (fb : Memory) :
    fbBit (unitShift t wrap fb d) k b = ((wrap || decide inside) && fbBit fb k' b') := by
  obtain ⟨x, y, _, _, p, hd, rfl, rfl, hin, ⟨rfl, rfl⟩, rfl, rfl⟩ := h
  rw [fbBit_unitShift d wrap fb p hd, ← Bool.eq_iff_iff.2 (hin.trans decide_eq_true_iff.symm)]

/-- On M8X8 a horizontal unit shift permutes the bits of each row's byte: column 0 is bit 7 (R93). -/
theorem feeds_m8x8_horizontal {r b : Nat} (hr : r < 8) (hb : b < 8) :
    Feeds .m8x8 .right (2 * r + 1) b (2 * r + 1) ((b + 7) % 8) (b ≠ 7) ∧
      Feeds .m8x8 .left (2 * r + 1) b (2 * r + 1) ((b + 1) % 8) (b ≠ 6) := by
  constructor
  · refine ⟨((b + 1) % 8 : Nat), r, b, r, .a, ?_⟩
    simp only [inDomain_iff, locPos, locBit, sourceX, sourceY, fromInside, columns, rows, Direction.stepX, Direction.stepY]
    split <;> split <;> omega
  · refine ⟨((b + 1) % 8 : Nat), r, ((b + 2) % 8 : Nat), r, .a, ?_⟩
    simp only [inDomain_iff, locPos, locBit, sourceX, sourceY, fromInside, columns, rows, Direction.stepX, Direction.stepY]
    split <;> split <;> omega

/-- On M8X8 a vertical unit shift takes the byte of the row beside it. -/
theorem feeds_m8x8_vertical {r b : Nat} (hr : r < 8) (hb : b < 8) :
    Feeds .m8x8 .down (2 * r + 1) b (2 * ((r + 7) % 8) + 1) b (1 ≤ r) ∧
      Feeds .m8x8 .up (2 * r + 1) b (2 * ((r + 1) % 8) + 1) b (r ≤ 6) := by
  constructor
  · refine ⟨((b + 1) % 8 : Nat), r, ((b + 1) % 8 : Nat), ((r + 7) % 8 : Nat), .a, ?_⟩
    simp only [inDomain_iff, locPos, locBit, sourceX, sourceY, fromInside, columns, rows, Direction.stepX, Direction.stepY]
    split <;> omega
  · refine ⟨((b + 1) % 8 : Nat), r, ((b + 1) % 8 : Nat), ((r + 1) % 8 : Nat), .a, ?_⟩
    simp only [inDomain_iff, locPos, locBit, sourceX, sourceY, fromInside, columns, rows, Direction.stepX, Direction.stepY]
    split <;> omega

/-- The position that holds column `x` of the 16 by 8 topologies (R94). -/
def columnPos (x : Nat) : Nat := 2 * (x % 8) + x / 8 + 1

theorem locPos_chained {t : Topology} (ht : t = .m16x8c ∨ t = .m16x8d) {x : Nat} (hx : x < 16) (y : Int) (p : Plane) :
    locPos t x y p = columnPos x := by
  rcases ht with rfl | rfl <;> simp only [locPos, columnPos] <;> split <;> omega

/-- On the 16 by 8 topologies a horizontal unit shift takes the byte of the column beside it. -/
theorem feeds_chained_horizontal {t : Topology} (ht : t = .m16x8c ∨ t = .m16x8d) {x b : Nat} (hx : x < 16) (hb : b < 8) :
    Feeds t .right (columnPos x) b (columnPos ((x + 15) % 16)) b (1 ≤ x) ∧
      Feeds t .left (columnPos x) b (columnPos ((x + 1) % 16)) b (x ≤ 14) := by
  have hC : columns t = 16 := by rcases ht with rfl | rfl <;> rfl
  have hbit : ∀ x : Int, locBit t x b = b := fun x => by rcases ht with rfl | rfl <;> rfl
  have hmod : ∀ {n : Nat}, n % 16 < 16 := Nat.mod_lt _ (by decide)
  constructor
  · refine ⟨x, b, ((x + 15) % 16 : Nat), b, .a, ?_⟩
    simp only [inDomain_iff, locPos_chained ht hx, locPos_chained ht hmod, hbit, sourceX, sourceY, fromInside, hC, rows_eq,
      Direction.stepX, Direction.stepY, and_true]
    omega
  · refine ⟨x, b, ((x + 1) % 16 : Nat), b, .a, ?_⟩
    simp only [inDomain_iff, locPos_chained ht hx, locPos_chained ht hmod, hbit, sourceX, sourceY, fromInside, hC, rows_eq,
      Direction.stepX, Direction.stepY, and_true]
    omega

/-- On the bi-colour topology a horizontal unit shift takes the byte of the column beside it, in the same plane. -/
theorem feeds_m8x8x2_horizontal {p r b : Nat} (hp : p = 1 ∨ p = 2) (hr : r < 8) (hb : b < 8) :
    Feeds .m8x8x2 .right (2 * r + p) b (2 * ((r + 7) % 8) + p) b (1 ≤ r) ∧
      Feeds .m8x8x2 .left (2 * r + p) b (2 * ((r + 1) % 8) + p) b (r ≤ 6) := by
  constructor
  · refine ⟨r, b, ((r + 7) % 8 : Nat), b, if p = 1 then .a else .b, ?_⟩
    simp only [inDomain_iff, locPos, locBit, sourceX, sourceY, fromInside, columns, rows, Direction.stepX, Direction.stepY]
    rcases hp with rfl | rfl <;> simp <;> omega
  · refine ⟨r, b, ((r + 1) % 8 : Nat), b, if p = 1 then .a else .b, ?_⟩
    simp only [inDomain_iff, locPos, locBit, sourceX, sourceY, fromInside, columns, rows, Direction.stepX, Direction.stepY]
    rcases hp with rfl | rfl <;> simp <;> omega

/-- Where bytes hold columns, every data position is one. -/
theorem exists_column {t : Topology} (ht : t ≠ .m8x8) {k : Nat} (h1 : 1 ≤ k) (h16 : k ≤ 16) :
    ∃ (x : Nat) (p : Plane), x < columns t ∧ ∀ y, locPos t x y p = k := by
  have chained : columns t = 16 → (t = .m16x8c ∨ t = .m16x8d) →
      ∃ (x : Nat) (p : Plane), x < columns t ∧ ∀ y, locPos t x y p = k := by
    intro hC ht
    refine ⟨(k - 1) / 2 + 8 * ((k - 1) % 2), .a, by omega, fun y => ?_⟩
    rw [locPos_chained ht (by omega), columnPos]
    omega
  cases t with
  | m8x8 => exact absurd rfl ht
  | m16x8c => exact chained rfl (.inl rfl)
  | m16x8d => exact chained rfl (.inr rfl)
  | m8x8x2 =>
    refine ⟨(k - 1) / 2, if k % 2 = 1 then .a else .b, by simp only [columns]; omega, fun y => ?_⟩
    by_cases hk : k % 2 = 1 <;> simp [locPos, hk] <;> omega

/-- Where bytes hold columns, a vertical unit shift permutes the bits of each byte. -/
theorem feeds_vertical {t : Topology} (ht : t ≠ .m8x8) {k b : Nat} (h1 : 1 ≤ k) (h16 : k ≤ 16) (hb : b < 8) :
    Feeds t .down k b k ((b + 7) % 8) (b ≠ 0) ∧ Feeds t .up k b k ((b + 1) % 8) (b ≠ 7) := by
  obtain ⟨x, p, hx, hpos⟩ := exists_column ht h1 h16
  have hbit : ∀ (x : Int) (y : Nat), locBit t x y = y := fun x y => by
    cases t with
    | m8x8 => exact absurd rfl ht
    | _ => rfl
  have hsource : (x : Int) % (columns t : Int) = x := Int.emod_eq_of_lt (by omega) (by omega)
  constructor
  · refine ⟨x, b, x, ((b + 7) % 8 : Nat), p, ?_⟩
    simp only [inDomain_iff, hpos, hbit, sourceX, sourceY, fromInside, rows_eq, Direction.stepX, Direction.stepY, Int.sub_zero,
      hsource, true_and, and_true]
    omega
  · refine ⟨x, b, x, ((b + 1) % 8 : Nat), p, ?_⟩
    simp only [inDomain_iff, hpos, hbit, sourceX, sourceY, fromInside, rows_eq, Direction.stepX, Direction.stepY, Int.sub_zero,
      hsource, true_and, and_true]
    omega

/-- A byte all of whose bits come from one byte, at the same bit numbers: the byte moves, from `i` inside the grid and from `e` over
the edge. -/
theorem fbRead_unitShift_move {t : Topology} {d : Direction} {k k' i e : Nat} {inside : Prop} [Decidable inside]
    (h : ∀ b, b < 8 → Feeds t d k b k' b inside) (hi : inside → k' = i) (he : ¬inside → k' = e) (wrap : Bool) (fb : Memory) :
    fbRead (unitShift t wrap fb d) k = if inside then fbRead fb i else if wrap then fbRead fb e else 0x00#8 := by
  refine byte_ext fun b hb => ((h b hb).fbBit wrap fb).trans ?_
  by_cases hin : inside
  · rw [if_pos hin, decide_eq_true hin, Bool.or_true, Bool.true_and, hi hin]
  · rw [if_neg hin, decide_eq_false hin, Bool.or_false, he hin]
    cases wrap
    · exact BitVec.getLsbD_zero.symm
    · rfl

theorem fbRead_unitShift_inside {t : Topology} {d : Direction} {k k' : Nat} {inside : Prop} [Decidable inside]
    (h : ∀ b, b < 8 → Feeds t d k b k' b inside) (hin : inside) (wrap : Bool) (fb : Memory) :
    fbRead (unitShift t wrap fb d) k = fbRead fb k' :=
  (fbRead_unitShift_move h (fun _ => rfl) (fun _ => rfl) wrap fb).trans (if_pos hin)

/-- A byte whose bits come from itself, permuted: `f` is the permuted byte, and without wrap the bits from over the edge are masked. -/
theorem fbRead_unitShift_permute {t : Topology} {d : Direction} {k : Nat} {σ : Nat → Nat} {inside : Nat → Prop}
    [DecidablePred inside] (h : ∀ b, b < 8 → Feeds t d k b k (σ b) (inside b)) (wrap : Bool) (fb : Memory) {f mask : Byte}
    (hf : ∀ b, b < 8 → f.getLsbD b = (fbRead fb k).getLsbD (σ b)) (hmask : ∀ b, b < 8 → mask.getLsbD b = decide (inside b)) :
    fbRead (unitShift t wrap fb d) k = f &&& (if wrap then 0xFF#8 else mask) := by
  have hff : ∀ b, b < 8 → (0xFF#8).getLsbD b = true := by decide
  refine byte_ext fun b hb => ((h b hb).fbBit wrap fb).trans ?_
  rw [BitVec.getLsbD_and, hf b hb, Bool.and_comm]
  cases wrap
  · rw [if_neg (by decide), hmask b hb, Bool.false_or]
  · rw [if_pos rfl, hff b hb, Bool.true_or]

theorem getLsbD_rotateLeft_one (v : Byte) {b : Nat} (hb : b < 8) : (v.rotateLeft 1).getLsbD b = v.getLsbD ((b + 7) % 8) := by
  rw [BitVec.getLsbD_rotateLeft]
  interval_cases b <;> rfl

theorem getLsbD_rotateRight_one (v : Byte) {b : Nat} (hb : b < 8) : (v.rotateRight 1).getLsbD b = v.getLsbD ((b + 1) % 8) := by
  rw [BitVec.getLsbD_rotateRight]
  interval_cases b <;> rfl

/-- Without wrap the bit that a rotation brings over the edge is cleared: a shift (R141). -/
theorem rotateLeft_one_and (wrap : Bool) (v : Byte) :
    v.rotateLeft 1 &&& (if wrap then 0xFF#8 else 0xFE#8) = if wrap then v.rotateLeft 1 else v <<< 1 := by
  revert wrap v; decide

theorem rotateRight_one_and (wrap : Bool) (v : Byte) :
    v.rotateRight 1 &&& (if wrap then 0xFF#8 else 0x7F#8) = if wrap then v.rotateRight 1 else v >>> 1 := by
  revert wrap v; decide

/-- Where bytes hold columns, a vertical unit shift rotates or shifts every data byte. -/
theorem fbRead_unitShift_vertical {t : Topology} (ht : t ≠ .m8x8) {k : Nat} (h1 : 1 ≤ k) (h16 : k ≤ 16) (wrap : Bool) (fb : Memory) :
    fbRead (unitShift t wrap fb .down) k = (if wrap then (fbRead fb k).rotateLeft 1 else fbRead fb k <<< 1) ∧
      fbRead (unitShift t wrap fb .up) k = (if wrap then (fbRead fb k).rotateRight 1 else fbRead fb k >>> 1) := by
  rw [← rotateLeft_one_and, ← rotateRight_one_and]
  exact ⟨fbRead_unitShift_permute (fun b hb => (feeds_vertical ht h1 h16 hb).1) wrap fb
      (fun b hb => getLsbD_rotateLeft_one _ hb) (by decide),
    fbRead_unitShift_permute (fun b hb => (feeds_vertical ht h1 h16 hb).2) wrap fb
      (fun b hb => getLsbD_rotateRight_one _ hb) (by decide)⟩

/-- Settles O29: bit by bit each byte comes from itself, permuted, or from one other byte; the table of R141 follows by topology. -/
theorem unitShiftByteForms : Obligations.UnitShiftByteForms := by
  refine fun wrap fb r hr => ⟨⟨?_, ?_, ?_, ?_, fun d => fbRead_unitShift_even wrap d fb r⟩, fun t ht => ?_, fun p hp => ⟨?_, ?_⟩,
    fun t i ht hi => ?_⟩
  · exact fbRead_unitShift_permute (fun b hb => (feeds_m8x8_horizontal hr hb).1) wrap fb
      (fun b hb => getLsbD_rotateLeft_one _ hb) (by decide)
  · exact fbRead_unitShift_permute (fun b hb => (feeds_m8x8_horizontal hr hb).2) wrap fb
      (fun b hb => getLsbD_rotateRight_one _ hb) (by decide)
  · exact fbRead_unitShift_move (fun b hb => (feeds_m8x8_vertical hr hb).1) (by omega) (by omega) wrap fb
  · exact fbRead_unitShift_move (fun b hb => (feeds_m8x8_vertical hr hb).2) (by omega) (by omega) wrap fb
  · have hodd : 2 * r + 1 = columnPos r := by rw [columnPos]; omega
    have heven : 2 * r + 2 = columnPos (r + 8) := by rw [columnPos]; omega
    rw [hodd, heven]
    refine ⟨?_, ?_, ?_, ?_⟩
    · exact fbRead_unitShift_move (fun b hb => (feeds_chained_horizontal ht (by omega) hb).1)
        (by rw [columnPos]; omega) (by rw [columnPos]; omega) wrap fb
    · rw [fbRead_unitShift_inside (fun b hb => (feeds_chained_horizontal ht (by omega) hb).1) (by omega) wrap fb,
        ← apply_ite (fbRead fb), columnPos]
      congr 1
      split <;> omega
    · rw [fbRead_unitShift_inside (fun b hb => (feeds_chained_horizontal ht (by omega) hb).2) (by omega) wrap fb,
        ← apply_ite (fbRead fb), columnPos]
      congr 1
      split <;> omega
    · exact (fbRead_unitShift_move (fun b hb => (feeds_chained_horizontal ht (by omega) hb).2)
        (by rw [columnPos]; omega) (by rw [columnPos]; omega) wrap fb).trans (if_congr (by omega) rfl rfl)
  · exact fbRead_unitShift_move (fun b hb => (feeds_m8x8x2_horizontal hp hr hb).1) (by omega) (by omega) wrap fb
  · exact fbRead_unitShift_move (fun b hb => (feeds_m8x8x2_horizontal hp hr hb).2) (by omega) (by omega) wrap fb
  · exact fbRead_unitShift_vertical (by rcases ht with rfl | rfl | rfl <;> decide) (by omega) (by omega) wrap fb

end Sys2Proof.Machine
end

section
/-! The SHIFT command (spec/42_shift.md R130, R136 to R140): the buffer after some of its unit shifts, the frames that it sends, and the
frame that is its last. -/

namespace Sys2Proof.Machine

open Sys2Proof

/-! ### The buffer after some unit shifts -/

/-- The buffer after the first `k` unit shifts of a list. -/
def fbAfter (t : Topology) (wrap : Bool) (ds : List Direction) (fb : Memory) (k : Nat) : Memory :=
  (ds.take k).foldl (unitShift t wrap) fb

theorem foldl_replicate_eq_iterate {α β : Type} (f : α → β → α) (b : β) (n : Nat) (a : α) :
    (List.replicate n b).foldl f a = (fun x => f x b)^[n] a := by
  induction n generalizing a with
  | zero => rfl
  | succ n ih => exact ih (f a b)

/-- The buffer after `k` unit shifts of a SHIFT is that of its list of unit shifts (R130, R136). -/
theorem fbAfterUnits_eq (t : Topology) (wrap : Bool) (dx dy : Int) (fb : Memory) {k : Nat} (hk : k ≤ dx.natAbs + dy.natAbs) :
    fbAfterUnits t wrap dx dy fb k = fbAfter t wrap (unitShifts dx dy) fb k := by
  rw [fbAfter, unitShifts, List.take_append, List.take_replicate, List.take_replicate, List.length_replicate, List.foldl_append,
    foldl_replicate_eq_iterate, foldl_replicate_eq_iterate, Nat.min_eq_left (by omega : k - dx.natAbs ≤ dy.natAbs)]
  rfl

/-! ### The sink -/

theorem sinkAfter_iterate (n : Nat) (k : Sink) : sinkAfter^[n] k = { k with script := k.script.drop n } := by
  induction n generalizing k with
  | zero => rfl
  | succ n ih => rw [Function.iterate_succ_apply, ih, sinkAfter, List.drop_tail]

theorem sinkAnswer_iterate_of_allOk {k : Sink} (h : AllOk k) (n : Nat) : sinkAnswer (sinkAfter^[n] k) = .ok := by
  rw [sinkAfter_iterate, sinkAnswer, List.headD_eq_head?_getD]
  cases hd : (k.script.drop n).head? with
  | none => exact h.2
  | some a => exact h.1 a (List.mem_of_mem_drop (List.mem_of_mem_head? hd))

theorem allOk_sinkAfter_iterate {k : Sink} (h : AllOk k) (n : Nat) : AllOk (sinkAfter^[n] k) := by
  rw [sinkAfter_iterate]
  exact ⟨fun a ha => h.1 a (List.mem_of_mem_drop ha), h.2⟩

/-! ### The frames of a run -/

/-- The state after frames of these buffers, each answered ok; what DEV then holds is left to the frame that follows. -/
def State.afterFrames (s : State) (ms : List Memory) : State :=
  { s with
    bus := s.bus ++ ms.map fun m => { addr := s.busAddr, bytes := frameOf m, answer := .ok }
    sink := sinkAfter^[ms.length] s.sink }

/-- The frames of a run of `n` unit shifts, `fbAt` giving the buffer after each number of them: the frames after `ks` are answered ok, and
the frame after `k` is the last, since its flush failed or it follows the last unit shift (R130, R138 to R140). With `exact` no frame is
left out and no choice taken. -/
structure FrameRun (fbAt : Nat → Memory) (n : Nat) (s : State) (ks : List Nat) (k q : Nat) (t : State) : Prop where
  rising : (ks ++ [k]).Sublist (List.range' 1 n)
  answered : ∀ i, i < ks.length → sinkAnswer (sinkAfter^[i] s.sink) = .ok
  last : sinkAnswer (sinkAfter^[ks.length] s.sink) = .ok → k = n
  exact_frames : s.coalescing = .exactFrames → ks = List.range' 1 ks.length ∧ k = ks.length + 1 ∧ q = s.draws
  sent : ∃ d, SentFrame { s.afterFrames (ks.map fbAt) with fb := fbAt k, draws := q, dev := d } t

section Run

variable {fbAt : Nat → Memory} {n q₀ : Nat} {s : State}

theorem range'_one_succ (n : Nat) : List.range' 1 (n + 1) = 1 :: (List.range' 1 n).map (· + 1) := by
  rw [List.range'_succ, List.range'_succ_left]

/-- The flush after the first unit shift ends the command: it fails, or there is no further unit shift. -/
theorem frameRun_single (hlast : sinkAnswer s.sink = .ok → n = 0) (hexact : s.coalescing = .exactFrames → q₀ = s.draws) :
    FrameRun fbAt (n + 1) s [] 1 q₀ ({ s with fb := fbAt 1, draws := q₀ } : State).flushAndComplete where
  rising := by
    rw [range'_one_succ]
    exact (List.nil_sublist _).cons_cons 1
  answered i hi := absurd hi (Nat.not_lt_zero i)
  last hok := by rw [hlast hok]
  exact_frames h := ⟨rfl, rfl, hexact h⟩
  sent := ⟨s.dev, by
    convert sentFrame_flushAndComplete _ using 1
    simp [State.afterFrames]⟩

/-- The frame after the first unit shift is left out. -/
theorem FrameRun.leaveOut {ks : List Nat} {k q : Nat} {t : State} (hc : s.coalescing ≠ .exactFrames)
    (h : FrameRun (fun i => fbAt (i + 1)) n { s with fb := fbAt 1, draws := q₀ } ks k q t) :
    FrameRun fbAt (n + 1) s (ks.map (· + 1)) (k + 1) q t where
  rising := by
    rw [range'_one_succ]
    simpa using (h.rising.map (· + 1)).cons 1
  answered := by simpa using h.answered
  last hok := congrArg (· + 1) (h.last (by simpa using hok))
  exact_frames he := absurd he hc
  sent := by simpa [State.afterFrames, Function.comp_def] using h.sent

/-- The frame after the first unit shift is sent and answered ok. -/
theorem FrameRun.cons {ks : List Nat} {k q : Nat} {t : State} (hexact : s.coalescing = .exactFrames → q₀ = s.draws)
    (hok : sinkAnswer s.sink = .ok)
    (h : FrameRun (fun i => fbAt (i + 1)) n
      (({ s with fb := fbAt 1, draws := q₀ } : State).afterBusWrite (.frame (fbData (fbAt 1)))) ks k q t) :
    FrameRun fbAt (n + 1) s (1 :: ks.map (· + 1)) (k + 1) q t where
  rising := by
    rw [range'_one_succ]
    simpa using (h.rising.map (· + 1)).cons_cons 1
  answered i hi := by
    cases i with
    | zero => exact hok
    | succ i => exact h.answered i (by simpa using hi)
  last hok := congrArg (· + 1) (h.last (by simpa using hok))
  exact_frames he := by
    obtain ⟨hks, hk, hq⟩ := h.exact_frames he
    refine ⟨?_, by simp [hk], hq.trans (hexact he)⟩
    conv_lhs => rw [hks]
    simp [range'_one_succ]
  sent := by
    obtain ⟨d, hd⟩ := h.sent
    refine ⟨d, ?_⟩
    convert hd using 1
    simp [State.afterFrames, hok, frameOf, ← frameBytes_fbData, busMsgBytes]

end Run

/-- What the first unit shift of a run does, as in `runUnitShifts_cons`; with `exact` no frame is left out and no choice taken. -/
theorem runUnitShifts_first (wrap : Bool) (d : Direction) (ds : List Direction) (s : State) :
    ∃ q, (s.coalescing = .exactFrames → q = s.draws) ∧
      ((ds ≠ [] ∧ s.coalescing ≠ .exactFrames ∧ runUnitShifts wrap (d :: ds) s =
          runUnitShifts wrap ds { s with fb := unitShift s.topo wrap s.fb d, draws := q }) ∨
        runUnitShifts wrap (d :: ds) s =
          ({ s with fb := unitShift s.topo wrap s.fb d, draws := q } : State).flushThen fun s1 => runUnitShifts wrap ds s1) := by
  by_cases he : s.coalescing = .exactFrames
  · exact ⟨s.draws, fun _ => rfl, .inr (runUnitShifts_exact wrap d ds he)⟩
  · obtain ⟨q, ⟨hne, hrun⟩ | hrun⟩ := runUnitShifts_cons wrap d ds s
    · exact ⟨q, (absurd · he), .inl ⟨hne, he, hrun⟩⟩
    · exact ⟨q, (absurd · he), .inr hrun⟩

/-- A run of one unit shift or more ends with a flush, after frames that were answered ok. -/
theorem frameRun_runUnitShifts (wrap : Bool) : ∀ (ds : List Direction) (s : State), ds ≠ [] →
    ∃ ks k q, FrameRun (fbAfter s.topo wrap ds s.fb) ds.length s ks k q (runUnitShifts wrap ds s)
  | [], _, h => absurd rfl h
  | d :: ds, s, _ => by
    obtain ⟨q₀, hq₀, ⟨hne, hc, hrun⟩ | hrun⟩ := runUnitShifts_first wrap d ds s
    · obtain ⟨ks, k, q, h⟩ := frameRun_runUnitShifts wrap ds { s with fb := unitShift s.topo wrap s.fb d, draws := q₀ } hne
      rw [hrun]
      exact ⟨_, _, _, FrameRun.leaveOut hc h⟩
    · rw [hrun]
      cases ha : sinkAnswer s.sink with
      | err e =>
        rw [flushThen_eq_flushAndComplete _ (by exact ha)]
        exact ⟨_, _, _, frameRun_single (by simp [ha]) hq₀⟩
      | ok =>
        cases ds with
        | nil => exact ⟨_, _, _, frameRun_single (fun _ => rfl) hq₀⟩
        | cons d' ds =>
          let s₁ : State := { s with fb := unitShift s.topo wrap s.fb d, draws := q₀ }
          obtain ⟨ks, k, q, h⟩ := frameRun_runUnitShifts wrap (d' :: ds) (s₁.afterBusWrite s₁.frameMsg) (List.cons_ne_nil d' ds)
          rw [flushThen_ok _ (by exact ha)]
          exact ⟨_, _, _, FrameRun.cons hq₀ ha h⟩

theorem FrameRun.congr {fbAt fbAt' : Nat → Memory} {n : Nat} {s : State} {ks : List Nat} {k q : Nat} {t : State}
    (h : FrameRun fbAt n s ks k q t) (heq : ∀ i, i ≤ n → fbAt i = fbAt' i) : FrameRun fbAt' n s ks k q t where
  rising := h.rising
  answered := h.answered
  last := h.last
  exact_frames := h.exact_frames
  sent := by
    have hle : ∀ i ∈ ks ++ [k], i ≤ n := fun i hi => by have := List.mem_range'_1.1 (h.rising.subset hi); omega
    rw [← heq k (hle k (by simp)), ← List.map_congr_left fun i hi => heq i (hle i (by simp [hi]))]
    exact h.sent

/-- SHIFT with a unit shift to make (R130). -/
theorem exec_shift_frameRun (s : State) {dx dy : Int} (wrap : Bool) (h : 1 ≤ dx.natAbs + dy.natAbs) :
    ∃ ks k q t, exec (.shift dx dy wrap) s = .next t ∧
      FrameRun (fbAfterUnits s.topo wrap dx dy s.fb) (dx.natAbs + dy.natAbs) s ks k q t := by
  have hne : unitShifts dx dy ≠ [] := unitShifts_ne_nil (by omega)
  obtain ⟨ks, k, q, hrun⟩ := frameRun_runUnitShifts wrap (unitShifts dx dy) s hne
  rw [unitShifts_length] at hrun
  exact ⟨ks, k, q, _, rfl, hrun.congr fun i hi => (fbAfterUnits_eq s.topo wrap dx dy s.fb hi).symm⟩

/-! ### What a run of frames leaves -/

namespace FrameRun

variable {fbAt : Nat → Memory} {n : Nat} {s : State} {ks : List Nat} {k q : Nat} {t : State} (h : FrameRun fbAt n s ks k q t)
include h

theorem pairwise : (ks ++ [k]).Pairwise (· < ·) := List.Pairwise.sublist h.rising (List.pairwise_lt_range' 1)

theorem mem_range {i : Nat} (hi : i ∈ ks ++ [k]) : 1 ≤ i ∧ i ≤ n := by
  have := List.mem_range'_1.1 (h.rising.subset hi)
  omega

theorem lt_last {i : Nat} (hi : i ∈ ks) : i < k := (List.pairwise_append.1 h.pairwise).2.2 i hi k (List.mem_singleton_self k)

theorem append_of_exact (he : s.coalescing = .exactFrames) : ks ++ [k] = List.range' 1 (ks.length + 1) := by
  obtain ⟨hks, hk, -⟩ := h.exact_frames he
  rw [List.range'_1_concat, ← hks, hk, Nat.add_comm]

/-- The whole state after the run, by the answer to the last frame. -/
theorem state_eq {a : BusAnswer} (ha : sinkAnswer (sinkAfter^[ks.length] s.sink) = a) :
    ∃ d, t = { s with
        fb := fbAt k
        bus := s.bus ++ (ks ++ [k]).map fun i =>
          { addr := s.busAddr, bytes := frameOf (fbAt i), answer := if i = k then a else .ok }
        sink := sinkAfter^[ks.length + 1] s.sink
        dev := d
        resp := answerWord a
        draws := q } ∧ (a = .ok → d = .holds (fbData (fbAt k))) := by
  obtain ⟨d, d', ht, hd⟩ := h.sent
  have hbefore : (ks.map fun i => (⟨s.busAddr, frameOf (fbAt i), if i = k then a else .ok⟩ : BusEntry)) =
      ks.map fun i => ⟨s.busAddr, frameOf (fbAt i), .ok⟩ :=
    List.map_congr_left fun i hi => by rw [if_neg (h.lt_last hi).ne]
  refine ⟨d', ht.trans ?_, fun hok => hd (by simpa [State.afterFrames, ha] using hok)⟩
  rw [List.map_append, hbefore]
  simp [State.afterFrames, ha, Function.iterate_succ_apply', Function.comp_def]

theorem completed (hok : sinkAnswer (sinkAfter^[ks.length] s.sink) = .ok) :
    t = { s with
      fb := fbAt n
      bus := s.bus ++ (ks ++ [k]).map fun i => { addr := s.busAddr, bytes := frameOf (fbAt i), answer := .ok }
      sink := sinkAfter^[ks.length + 1] s.sink
      dev := .holds (fbData (fbAt n))
      resp := 0x00000000#32
      draws := q } := by
  obtain ⟨d, ht, hd⟩ := h.state_eq hok
  rw [hd rfl, h.last hok] at ht
  simpa [answerWord, h.last hok] using ht

/-- An answer of `err` ends the run, so no frame is sent after it. -/
theorem length_le {j : Nat} {e : BitVec 16} (herr : sinkAnswer (sinkAfter^[j] s.sink) = .err e) : ks.length ≤ j := by
  by_contra hlt
  have hok := h.answered j (by omega)
  rw [herr] at hok
  cases hok

end FrameRun

/-! ### SHIFT and its frames -/

theorem exec_shift_zero (s : State) (wrap : Bool) : exec (.shift 0 0 wrap) s = .next { s with resp := 0x00000000#32 } :=
  congrArg Host.Outcome.next (complete_eq s)

/-- Settles O30: no unit shift is made, and the command completes. -/
theorem zeroShiftOnlyWritesResp : Obligations.ZeroShiftOnlyWritesResp := exec_shift_zero

/-- Settles O31: the only unit shift is the last one, and its flush ends the command. -/
theorem shiftByOneIsOneUnitShiftAndOneFrame : Obligations.ShiftByOneIsOneUnitShiftAndOneFrame := by
  have single : ∀ (s : State) (wrap : Bool) (dx dy : Int) (d : Direction), unitShifts dx dy = [d] →
      ∃ t, exec (.shift dx dy wrap) s = .next t ∧ SentFrame { s with fb := unitShift s.topo wrap s.fb d } t := by
    intro s wrap dx dy d hd
    refine ⟨_, rfl, ?_⟩
    rw [hd, runUnitShifts_single]
    exact sentFrame_flushAndComplete _
  exact fun s wrap => ⟨single s wrap 1 0 .right rfl, single s wrap (-1) 0 .left rfl, single s wrap 0 1 .down rfl,
    single s wrap 0 (-1) .up rfl⟩

/-- Settles O34: every frame of the run is answered ok, the last one too, and so it follows the last unit shift. -/
theorem coalescedShiftEndsWithTheLastFrame : Obligations.CoalescedShiftEndsWithTheLastFrame := by
  intro s dx dy wrap hok hn n
  obtain ⟨ks, k, q, t, hexec, h⟩ := exec_shift_frameRun s wrap hn
  have hanswer := sinkAnswer_iterate_of_allOk hok ks.length
  refine ⟨ks ++ [k], q, h.pairwise, fun _ => h.mem_range, by rw [List.getLast?_concat, h.last hanswer], ?_⟩
  rw [hexec, h.completed hanswer, sinkAfter_iterate, List.length_append, List.length_singleton]

/-- Settles O32: with `exact` the frames follow every unit shift from the first to the last. -/
theorem exactShiftSendsAFramePerUnitShift : Obligations.ExactShiftSendsAFramePerUnitShift := by
  intro s dx dy wrap he hok n
  by_cases hn : n = 0
  · obtain ⟨rfl, rfl⟩ : dx = 0 ∧ dy = 0 := by omega
    simpa [n, fbAfterUnits] using exec_shift_zero s wrap
  · obtain ⟨ks, k, q, t, hexec, h⟩ := exec_shift_frameRun s (dx := dx) (dy := dy) wrap (by omega)
    have hanswer := sinkAnswer_iterate_of_allOk hok ks.length
    obtain ⟨-, hk, hq⟩ := h.exact_frames he
    have hlen : ks.length + 1 = n := hk.symm.trans (h.last hanswer)
    rw [hexec, h.completed hanswer, h.append_of_exact he, hlen, sinkAfter_iterate, if_neg hn, hq, List.range'_eq_map_range, List.map_map]
    simp [Function.comp_def, Nat.add_comm, n]

/-- Settles O33: the run ends with the failing answer or, if frames that were left out keep it from being drawn, with an answer of ok
after the last unit shift; `exact` leaves none out. -/
theorem exactShiftStopsAtTheFailedFlush : Obligations.ExactShiftStopsAtTheFailedFlush := by
  intro s dx dy wrap j e hok herr n
  by_cases hn : n = 0
  · obtain ⟨rfl, rfl⟩ : dx = 0 ∧ dy = 0 := by omega
    refine ⟨fun _ hj => by omega, [], s.draws, .unknown, .nil, by simp, .inr ⟨Nat.zero_le j, .inl hn, ?_⟩⟩
    simpa [n, fbAfterUnits] using exec_shift_zero s wrap
  obtain ⟨ks, k, q, t, hexec, h⟩ := exec_shift_frameRun s (dx := dx) (dy := dy) wrap (by omega)
  rw [hexec]
  rcases (h.length_le herr).lt_or_eq with hlt | rfl
  · have hanswer := hok ks.length hlt
    refine ⟨fun he hj => ?_, ks ++ [k], q, .unknown, h.pairwise, fun _ => h.mem_range, .inr ⟨?_, .inr ?_, ?_⟩⟩
    · have hk := (h.exact_frames he).2.1
      have hkn := h.last hanswer
      omega
    · simpa using hlt
    · rw [List.getLast?_concat, h.last hanswer]
    · rw [if_neg hn, h.completed hanswer, List.length_append, List.length_singleton]
  · obtain ⟨d, ht, -⟩ := h.state_eq herr
    refine ⟨fun he _ => ⟨d, ?_⟩, ks ++ [k], q, d, h.pairwise, fun _ => h.mem_range, .inl ⟨k, ?_, List.getLast?_concat, ?_⟩⟩
    · obtain ⟨-, hk, hq⟩ := h.exact_frames he
      rw [ht, h.append_of_exact he, hk, hq, List.range'_eq_map_range, List.map_map]
      simp [Function.comp_def, Nat.add_comm]
    · rw [List.length_append, List.length_singleton]
    · rw [ht]

end Sys2Proof.Machine
end

section
/-! What SHIFT does to the picture (spec/42_shift.md R142, R143): with every answer ok it translates or, with wrap, rotates the grid. -/

namespace Sys2Proof.Machine

open Sys2Proof

/-! ### The grid after unit shifts in one direction -/

theorem gridOf_unitShift_wrap {t : Topology} {x y : Int} (d : Direction) (fb : Memory) (h : inDomain t x y = true) :
    gridOf t (unitShift t true fb d) x y = gridOf t fb (sourceX t d x) (sourceY t d y) := by
  rw [gridOf_unitShift d true fb h, shiftedGrid_eq d true _ h, Bool.true_or, if_pos rfl]

/-- Without wrap the source is read where it stands, and outside the grid every pixel is Off. -/
theorem gridOf_unitShift_noWrap {t : Topology} {x y : Int} (d : Direction) (fb : Memory) (h : inDomain t x y = true) :
    gridOf t (unitShift t false fb d) x y = gridOf t fb (x - d.stepX) (y - d.stepY) := by
  rw [gridOf_unitShift d false fb h, shiftedGrid_eq d false _ h, Bool.false_or, fromInside]
  cases hin : inDomain t (x - d.stepX) (y - d.stepY) with
  | true => rw [if_pos rfl, sourceX, sourceY, (emod_of_inDomain hin).1, (emod_of_inDomain hin).2]
  | false => rw [if_neg Bool.false_ne_true, gridOf_out hin]

theorem gridOf_iterate_wrap {t : Topology} (d : Direction) (fb : Memory) (n : Nat) {x y : Int} (h : inDomain t x y = true) :
    gridOf t ((fun m => unitShift t true m d)^[n] fb) x y =
      gridOf t fb ((x - n * d.stepX) % (columns t : Int)) ((y - n * d.stepY) % (rows t : Int)) := by
  induction n generalizing x y with
  | zero => simp only [Function.iterate_zero_apply, Nat.cast_zero, zero_mul, sub_zero, emod_of_inDomain h]
  | succ n ih =>
    rw [Function.iterate_succ_apply', gridOf_unitShift_wrap d _ h, ih (inDomain_source t d x y), sourceX, sourceY,
      Int.emod_sub_emod, Int.emod_sub_emod]
    congr 2 <;> push_cast <;> ring

/-- A pixel that a unit shift fills from outside the grid comes from outside it after more of them, too. -/
theorem not_inDomain_beyond {t : Topology} (d : Direction) (n : Nat) {x y : Int} (h : inDomain t x y = true)
    (hout : inDomain t (x - d.stepX) (y - d.stepY) = false) :
    inDomain t (x - d.stepX - n * d.stepX) (y - d.stepY - n * d.stepY) = false := by
  rw [← Bool.not_eq_true, inDomain_iff] at *
  cases d <;> simp only [Direction.stepX, Direction.stepY] at * <;> omega

theorem gridOf_iterate_noWrap {t : Topology} (d : Direction) (fb : Memory) (n : Nat) {x y : Int} (h : inDomain t x y = true) :
    gridOf t ((fun m => unitShift t false m d)^[n] fb) x y = gridOf t fb (x - n * d.stepX) (y - n * d.stepY) := by
  induction n generalizing x y with
  | zero => simp
  | succ n ih =>
    have hstep : ∀ z step : Int, z - (n + 1 : Nat) * step = z - step - n * step := fun z step => by push_cast; ring
    rw [Function.iterate_succ_apply', gridOf_unitShift_noWrap d _ h, hstep, hstep]
    cases hin : inDomain t (x - d.stepX) (y - d.stepY) with
    | true => exact ih hin
    | false => rw [gridOf_out hin, gridOf_out (not_inDomain_beyond d n h hin)]

/-! ### The grid after a SHIFT -/

theorem natAbs_mul_horizontal (dx : Int) : dx.natAbs * (horizontalDir dx).stepX = dx ∧ (horizontalDir dx).stepY = 0 := by
  rw [horizontalDir]
  split <;> simp only [Direction.stepX, Direction.stepY, and_true] <;> omega

theorem natAbs_mul_vertical (dy : Int) : (verticalDir dy).stepX = 0 ∧ dy.natAbs * (verticalDir dy).stepY = dy := by
  rw [verticalDir]
  split <;> simp only [Direction.stepX, Direction.stepY, true_and] <;> omega

/-- The buffer after all unit shifts of SHIFT dx, dy. -/
def shiftedFb (t : Topology) (wrap : Bool) (dx dy : Int) (fb : Memory) : Memory :=
  fbAfterUnits t wrap dx dy fb (dx.natAbs + dy.natAbs)

theorem shiftedFb_eq (t : Topology) (wrap : Bool) (dx dy : Int) (fb : Memory) :
    shiftedFb t wrap dx dy fb =
      (fun m => unitShift t wrap m (verticalDir dy))^[dy.natAbs]
        ((fun m => unitShift t wrap m (horizontalDir dx))^[dx.natAbs] fb) := by
  rw [shiftedFb, fbAfterUnits, Nat.add_sub_cancel_left, Nat.min_eq_right (Nat.le_add_right ..)]
  rfl

/-- With wrap the grid is rotated (R143). -/
theorem gridOf_shiftedFb_wrap {t : Topology} {x y : Int} (dx dy : Int) (fb : Memory) (h : inDomain t x y = true) :
    gridOf t (shiftedFb t true dx dy fb) x y =
      gridOf t fb ((x - dx) % (columns t : Int)) ((y - dy) % (rows t : Int)) := by
  obtain ⟨hX, hY⟩ := natAbs_mul_horizontal dx
  obtain ⟨vX, vY⟩ := natAbs_mul_vertical dy
  rw [shiftedFb_eq, gridOf_iterate_wrap _ _ _ h, gridOf_iterate_wrap _ _ _ (inDomain_emod t _ _), vX, vY, hX, hY]
  simp

/-- Without wrap the grid is translated (R143). -/
theorem gridOf_shiftedFb_noWrap {t : Topology} {x y : Int} (dx dy : Int) (fb : Memory) (h : inDomain t x y = true) :
    gridOf t (shiftedFb t false dx dy fb) x y = gridOf t fb (x - dx) (y - dy) := by
  obtain ⟨hX, hY⟩ := natAbs_mul_horizontal dx
  obtain ⟨vX, vY⟩ := natAbs_mul_vertical dy
  rw [shiftedFb_eq, gridOf_iterate_noWrap _ _ _ h, vX, vY, Int.mul_zero, Int.sub_zero]
  cases hin : inDomain t x (y - dy) with
  | true => rw [gridOf_iterate_noWrap _ _ _ hin, hX, hY, Int.mul_zero, Int.sub_zero]
  | false =>
    have hout : inDomain t (x - dx) (y - dy) = false := by
      rw [← Bool.not_eq_true, inDomain_iff] at *
      omega
    rw [gridOf_out hin, gridOf_out hout]

/-- With every answer ok SHIFT completes all its unit shifts (R130), whatever frames are left out. -/
theorem exec_shift_allOk {s : State} (hok : AllOk s.sink) (dx dy : Int) (wrap : Bool) :
    ∃ t, exec (.shift dx dy wrap) s = .next t ∧ t.topo = s.topo ∧ AllOk t.sink ∧ t.fb = shiftedFb s.topo wrap dx dy s.fb := by
  by_cases hn : 1 ≤ dx.natAbs + dy.natAbs
  · obtain ⟨ks, k, q, t, hexec, h⟩ := exec_shift_frameRun s wrap hn
    rw [h.completed (sinkAnswer_iterate_of_allOk hok _)] at hexec
    exact ⟨_, hexec, rfl, allOk_sinkAfter_iterate hok _, rfl⟩
  · obtain ⟨rfl, rfl⟩ : dx = 0 ∧ dy = 0 := by omega
    exact ⟨_, exec_shift_zero s wrap, rfl, hok, rfl⟩

/-- Settles O35: the grid is translated, and it is Off outside its extents. -/
theorem shiftWithoutWrapTranslatesTheGrid : Obligations.ShiftWithoutWrapTranslatesTheGrid := by
  intro s dx dy hok
  obtain ⟨t, hexec, -, -, hfb⟩ := exec_shift_allOk hok dx dy false
  refine ⟨t, hexec, fun x y hmap => ?_⟩
  have h := inDomain_of_mapPixel_ne hmap
  rw [pixelRead_eq_gridOf h, hfb, gridOf_shiftedFb_noWrap dx dy s.fb h]
  cases hin : inDomain s.topo (x - dx) (y - dy) with
  | true => rw [if_pos (by simp [mapPixel_in _ hin]), pixelRead_eq_gridOf hin]
  | false => rw [if_neg (by simp [mapPixel_out _ hin]), gridOf_out hin]

/-- Settles O36: the grid is rotated. -/
theorem shiftWithWrapRotatesTheGrid : Obligations.ShiftWithWrapRotatesTheGrid := by
  intro s dx dy hok
  obtain ⟨t, hexec, -, -, hfb⟩ := exec_shift_allOk hok dx dy true
  refine ⟨t, hexec, fun x y hmap => ?_⟩
  have h := inDomain_of_mapPixel_ne hmap
  rw [pixelRead_eq_gridOf h, hfb, gridOf_shiftedFb_wrap dx dy s.fb h, pixelRead_eq_gridOf (inDomain_emod s.topo _ _)]

/-! ### Shifts that restore the buffer (R142) -/

theorem fbRead_foldl_even (wrap : Bool) (r : Nat) (ds : List Direction) (fb : Memory) :
    fbRead (ds.foldl (unitShift .m8x8 wrap) fb) (2 * r + 2) = fbRead fb (2 * r + 2) := by
  induction ds generalizing fb with
  | nil => rfl
  | cons d ds ih => rw [List.foldl_cons, ih, fbRead_unitShift_even]

/-- On M8X8 SHIFT leaves the even positions. -/
theorem fbRead_shiftedFb_even {t : Topology} (ht : t = .m8x8) (wrap : Bool) (dx dy : Int) (fb : Memory) (r : Nat) :
    fbRead (shiftedFb t wrap dx dy fb) (2 * r + 2) = fbRead fb (2 * r + 2) := by
  rw [ht, shiftedFb, fbAfterUnits_eq _ _ _ _ _ (Nat.le_refl _), fbAfter, fbRead_foldl_even]

theorem fbRead_eq_of_gridOf {t : Topology} {m m' : Memory} (h : ∀ x y, inDomain t x y = true → gridOf t m x y = gridOf t m' x y)
    (he : t = .m8x8 → ∀ r, fbRead m (2 * r + 2) = fbRead m' (2 * r + 2)) (k : Nat) : fbRead m k = fbRead m' k :=
  fbRead_eq_of_pixels (fun x y hd => by rw [pixelRead_eq_gridOf hd, pixelRead_eq_gridOf hd, h x y hd]) he k

/-- Settles O37: by a full extent every pixel is rotated to itself, and the grid determines FB. -/
theorem fullCycleWithWrapRestoresTheBuffer : Obligations.FullCycleWithWrapRestoresTheBuffer := by
  intro s dx dy hok hcycle
  obtain ⟨t, hexec, -, -, hfb⟩ := exec_shift_allOk hok dx dy true
  refine ⟨t, hexec, hfb ▸ fbRead_eq_of_gridOf (t := s.topo) (fun x y h => ?_) fun ht => fbRead_shiftedFb_even ht true dx dy s.fb⟩
  have hx : (x - dx) % (columns s.topo : Int) = x % (columns s.topo : Int) := by
    rcases hcycle with ⟨rfl, -⟩ | ⟨rfl, -⟩ | ⟨rfl, -⟩ | ⟨rfl, -⟩ <;> simp
  have hy : (y - dy) % (rows s.topo : Int) = y % (rows s.topo : Int) := by
    rcases hcycle with ⟨-, rfl⟩ | ⟨-, rfl⟩ | ⟨-, rfl⟩ | ⟨-, rfl⟩ <;> simp
  rw [gridOf_shiftedFb_wrap dx dy s.fb h, hx, hy, (emod_of_inDomain h).1, (emod_of_inDomain h).2]

/-- Settles O38: the second rotation takes every pixel back, and the grid determines FB. -/
theorem oppositeShiftWithWrapRestoresTheBuffer : Obligations.OppositeShiftWithWrapRestoresTheBuffer := by
  intro s dx dy hok
  obtain ⟨t, hexec, htopo, hok', hfb⟩ := exec_shift_allOk hok dx dy true
  obtain ⟨u, hexec', -, -, hfb'⟩ := exec_shift_allOk hok' (-dx) (-dy) true
  rw [htopo, hfb] at hfb'
  refine ⟨t, u, hexec, hexec', hfb' ▸ fbRead_eq_of_gridOf (t := s.topo) (fun x y h => ?_) fun ht r => ?_⟩
  · rw [gridOf_shiftedFb_wrap _ _ _ h, gridOf_shiftedFb_wrap _ _ _ (inDomain_emod s.topo _ _), Int.emod_sub_emod,
      Int.emod_sub_emod, sub_neg_eq_add, sub_neg_eq_add, add_sub_cancel_right, add_sub_cancel_right, (emod_of_inDomain h).1,
      (emod_of_inDomain h).2]
  · rw [fbRead_shiftedFb_even ht, fbRead_shiftedFb_even ht]

end Sys2Proof.Machine
end

section
/-! The buffer commands RDBIT, WRBIT, FILLRAW and FLUSH and the controller commands INIT, BLINK and BRIGHT (spec/43_controller.md R150 to
R157): what each leaves in the state, the bytes it sends, and how the pixel commands reduce to them (R153). -/

namespace Sys2Proof.Machine

open Sys2Proof

/-! ### A bus write that can end a command -/

/-- A bus write that is not answered ok ends the command, and RESP carries its answer (R173). -/
theorem send_of_ne_ok {s : State} (msg : BusMsg) (goOn : State → State) (h : sinkAnswer s.sink ≠ .ok) :
    s.send msg goOn = (s.afterBusWrite msg).withResp (answerWord (sinkAnswer s.sink)) := by
  obtain ⟨hok, -⟩ | ⟨e, he, hsend⟩ := send_eq s msg goOn
  · exact absurd hok h
  · rw [hsend, he, State.raise, respRaised_transport, answerWord]

/-- The bus write that ends a command writes RESP with its answer, ok or not (R67). -/
theorem sendAndComplete_eq (s : State) (msg : BusMsg) :
    s.sendAndComplete msg = (s.afterBusWrite msg).withResp (answerWord (sinkAnswer s.sink)) := by
  by_cases h : sinkAnswer s.sink = .ok
  · rw [State.sendAndComplete, send_ok msg _ h, h, State.complete, respNothing_eq, answerWord]
  · exact send_of_ne_ok msg _ h

theorem sentByte_sendAndComplete (s : State) {msg : BusMsg} {b : Byte} (hno : ∀ data, msg ≠ .frame data)
    (hb : busMsgBytes msg = [b]) : SentByte b s (s.sendAndComplete msg) := by
  refine ⟨devAfter msg (sinkAnswer s.sink) s.dev, ?_, fun hok => ?_⟩
  · rw [sendAndComplete_eq, ← hb]
    rfl
  · rw [hok, devAfter_ok_of_not_frame _ hno]

/-! ### INIT -/

/-- INIT once its first byte is sent and BLINK stored (R155). -/
def initFirst (s : State) : State := (s.afterBusWrite .oscOn).withBlink 0#2

/-- INIT once its second byte is sent and BRIGHT stored (R155). -/
def initSecond (s : State) : State := ((initFirst s).afterBusWrite (.blink 0#2)).withBright 15#4

section Init

variable {s : State}

theorem exec_init_first_fails (h1 : sinkAnswer s.sink ≠ .ok) :
    exec .init s = .next ((s.afterBusWrite .oscOn).withResp (answerWord (sinkAnswer s.sink))) :=
  congrArg Host.Outcome.next (send_of_ne_ok .oscOn _ h1)

theorem exec_init_first_ok (h1 : sinkAnswer s.sink = .ok) :
    exec .init s = .next ((initFirst s).send (.blink 0#2) fun u => (u.withBright 15#4).sendAndComplete (.bright 15#4)) :=
  congrArg Host.Outcome.next (send_ok .oscOn _ h1)

theorem exec_init_second_fails (h1 : sinkAnswer s.sink = .ok) (h2 : sinkAnswer (initFirst s).sink ≠ .ok) :
    exec .init s =
      .next (((initFirst s).afterBusWrite (.blink 0#2)).withResp (answerWord (sinkAnswer (initFirst s).sink))) := by
  rw [exec_init_first_ok h1, send_of_ne_ok _ _ h2]

theorem exec_init_second_ok (h1 : sinkAnswer s.sink = .ok) (h2 : sinkAnswer (initFirst s).sink = .ok) :
    exec .init s =
      .next (((initSecond s).afterBusWrite (.bright 15#4)).withResp (answerWord (sinkAnswer (initSecond s).sink))) := by
  rw [exec_init_first_ok h1, send_ok _ _ h2, sendAndComplete_eq, initSecond]

end Init

/-- Settles O43: INIT ends at its first write that fails, or with its third. -/
theorem initSendsItsThreeBytesInOrder : Obligations.InitSendsItsThreeBytesInOrder := by
  intro s a1 k1 a2 k2 a3 b1 b2 b3
  by_cases h1 : a1 = .ok
  · by_cases h2 : a2 = .ok
    · refine ⟨((initSecond s).afterBusWrite (.bright 15#4)).dev, (absurd h1 ·), fun _ => (absurd h2 ·), fun _ _ => ?_,
        fun _ _ h3 => ?_⟩
      · rw [exec_init_second_ok h1 h2, List.append_cons s.bus b1 [b2, b3], List.append_cons _ b2 [b3]]
        rfl
      · change devAfter _ a3 (devAfter _ a2 (devAfter _ a1 s.dev)) = s.dev
        rw [h1, h2, h3]
        rfl
    · refine ⟨((initFirst s).afterBusWrite (.blink 0#2)).dev, (absurd h1 ·), fun _ _ => ?_, fun _ => (absurd · h2),
        fun _ => (absurd · h2)⟩
      rw [exec_init_second_fails h1 h2, List.append_cons s.bus b1 [b2]]
      rfl
  · exact ⟨(s.afterBusWrite .oscOn).dev, fun _ => exec_init_first_fails h1, (absurd · h1), (absurd · h1), (absurd · h1)⟩

/-! ### RDBIT, WRBIT, FILLRAW and FLUSH -/

theorem positionLegal_iff {i : Nat} : positionLegal i = true ↔ 1 ≤ i ∧ i ≤ 16 := by simp [positionLegal]

theorem exec_rdbit {i : Nat} (m : Byte) (s : State) (hi : positionLegal i = true) :
    exec (.rdbit i m) s = .next { s with resp := presentWord 0 (if readBit s.fb i m then 1 else 0) } := by
  have hword : ∀ v : Bool, respPresent 0x00#8 (if v then 1#8 else 0#8) = presentWord 0 (if v then 1 else 0) := by decide
  rw [← hword]
  exact congrArg Host.Outcome.next (if_pos hi)

theorem exec_wrbit {i : Nat} (m : Byte) (v : Bool) (s : State) (hi : positionLegal i = true) :
    exec (.wrbit i m v) s = .next (s.withFb (writeBit s.fb i m v)).flushAndComplete :=
  congrArg Host.Outcome.next (if_pos hi)

theorem exec_fillraw {b : Byte} (s : State) (hb : rawByteLegal b = true) :
    exec (.fillraw b) s = .next (s.withFb (fillAll b s.fb)).complete :=
  congrArg Host.Outcome.next (if_pos hb)

theorem exec_flush (s : State) : exec .flush s = .next s.flushAndComplete := rfl

/-- ReadBit by bits (R150). -/
theorem readBit_iff {fb : Memory} {i : Nat} {m : Byte} :
    readBit fb i m = true ↔ ∃ b : Fin 8, (fbRead fb i).getLsbD b = true ∧ m.getLsbD b = true := by
  rw [readBit, bne_iff_ne]
  constructor
  · contrapose!
    refine fun hnone => byte_ext fun b hb => ?_
    simpa using hnone ⟨b, hb⟩
  · rintro ⟨b, hbyte, hmask⟩ hzero
    have hbit := congrArg (BitVec.getLsbD · b) hzero
    rw [BitVec.getLsbD_and, hbyte, hmask] at hbit
    simp at hbit

/-- Settles O39: RDBIT presents ReadBit, which asks for a bit of the byte under the mask. -/
theorem rdbitTestsTheMaskedBits : Obligations.RdbitTestsTheMaskedBits := by
  intro s i m hlow hhigh
  rw [exec_rdbit m s (positionLegal_iff.2 ⟨hlow, hhigh⟩)]
  simp only [readBit_iff]

/-- Settles O40: WRBIT flushes the buffer that WriteBit leaves. -/
theorem wrbitStoresTheMaskedBits : Obligations.WrbitStoresTheMaskedBits := by
  intro s i m v hlow hhigh
  refine ⟨writeBit s.fb i m v, _, exec_wrbit m v s (positionLegal_iff.2 ⟨hlow, hhigh⟩), sentFrame_flushAndComplete (s.withFb _),
    fun k hk => ?_, fun b hb => ?_⟩
  · rw [fbRead_writeBit, if_neg fun h => hk h.1]
  · exact (fbBit_writeBit s.fb i m v i hb).trans (by simp [hlow, hhigh])

/-- Settles O41: FILLRAW completes with the buffer that `fillAll` leaves. -/
theorem fillrawStoresEveryDataByteAndSendsNothing : Obligations.FillrawStoresEveryDataByteAndSendsNothing := by
  intro s b hb
  have hlegal : rawByteLegal b = true := by simpa [rawByteLegal] using hb
  refine ⟨fillAll b s.fb, ?_, fbRead_zero _, fun k hlow hhigh => ?_⟩
  · rw [exec_fillraw s hlegal, complete_eq, State.withFb]
  · rw [fbRead_fillAll, if_pos ⟨hlow, hhigh⟩]

/-- Settles O42: FLUSH is the flush that ends a command. -/
theorem flushSendsTheWholeBuffer : Obligations.FlushSendsTheWholeBuffer := fun s =>
  ⟨_, exec_flush s, sentFrame_flushAndComplete s⟩

/-! ### BLINK and BRIGHT -/

/-- The word of a command whose one operand is the byte A (R60, R61). -/
theorem cmdWord_byte (op : BitVec 4) (a : Byte) :
    cmdWord op false 0#2 0#8 a = BitVec.ofNat 32 (0x10000000 * op.toNat + a.toNat) := by
  have hop := op.isLt
  have ha := a.isLt
  apply BitVec.eq_of_toNat_eq
  rw [cmdWord_toNat, BitVec.toNat_ofNat]
  simp only [Bool.toNat_false, BitVec.toNat_ofNat]
  omega

theorem decodeWord_blink (rate : Byte) : decodeWord (BitVec.ofNat 32 (0xD0000000 + rate.toNat)) = .ok (.blink rate) :=
  (congrArg decodeWord (cmdWord_byte 0xD#4 rate)).symm.trans (decode_encode (i := .blink rate) rfl)

theorem decodeWord_bright (level : Byte) : decodeWord (BitVec.ofNat 32 (0xE0000000 + level.toNat)) = .ok (.bright level) :=
  (congrArg decodeWord (cmdWord_byte 0xE#4 level)).symm.trans (decode_encode (i := .bright level) rfl)

theorem maskedRate_eq (rate : Byte) : maskedRate rate = BitVec.ofNat 2 rate.toNat := by
  simp [maskedRate, BitVec.extractLsb']

theorem maskedLevel_eq (level : Byte) : maskedLevel level = BitVec.ofNat 4 level.toNat := by
  simp [maskedLevel, BitVec.extractLsb']

/-- Settles O44: BLINK stores the masked rate and ends with the bus write of its byte. -/
theorem blinkStoresAndSendsTheRate : Obligations.BlinkStoresAndSendsTheRate := by
  refine fun s rate => ⟨decodeWord_blink rate, _, rfl, ?_⟩
  rw [maskedRate_eq]
  exact sentByte_sendAndComplete _ nofun (congrArg ([·]) (blinkByte_eq _))

/-- Settles O45: BRIGHT stores the masked level and ends with the bus write of its byte. -/
theorem brightStoresAndSendsTheLevel : Obligations.BrightStoresAndSendsTheLevel := by
  refine fun s level => ⟨decodeWord_bright level, _, rfl, ?_⟩
  rw [maskedLevel_eq]
  exact sentByte_sendAndComplete _ nofun (congrArg ([·]) (brightByte_eq _))

/-! ### The monochrome pixel commands (R153) -/

section Monochrome

variable {t : Topology} (ht : t ≠ .m8x8x2)
include ht

theorem pixelRead_mono {x y : Int} {l : BitLoc} (fb : Memory) (hl : mapPixel t x y .a = some l) :
    pixelRead t fb x y = some (colourOf false (readBit fb l.pos l.mask)) := by
  simp [pixelRead, ht, hl]

theorem pixelWrite_mono {x y : Int} {l : BitLoc} (fb : Memory) (c : Colour) (hl : mapPixel t x y .a = some l) :
    pixelWrite t fb x y c = some (writeBit fb l.pos l.mask (planeBBit c)) := by
  simp [pixelWrite, ht, hl]

theorem fillMemory_mono (c : Colour) (fb : Memory) : fillMemory t c fb = fillAll (fillByte (planeBBit c)) fb := if_neg ht

end Monochrome

theorem toNat_colourOf_false (v : Bool) : (colourOf false v).toNat = if v then 1 else 0 := by
  cases v <;> rfl

/-- 0 and 1 as colours are legal on every topology (R62). -/
theorem colourLegal_bool (t : Topology) (v : Bool) : colourLegal t (if v then 1#2 else 0#2) = true :=
  colourLegal_iff.2 (.inr (by cases v <;> rfl))

theorem planeBBit_bool (v : Bool) : planeBBit (if v then 1#2 else 0#2) = v := by cases v <;> rfl

/-- Settles O47: both commands present the bit at the mapped location, or both flush the buffer with it written. -/
theorem monochromePixelCommandsAreBitCommands : Obligations.MonochromePixelCommandsAreBitCommands := by
  intro s x y l ht hl
  obtain ⟨hlow, hhigh, -⟩ := mapperStaysInTheDataBytes s.topo x y .a l hl
  have hpos := positionLegal_iff.2 ⟨hlow, hhigh⟩
  refine ⟨?_, fun v => ?_⟩
  · rw [exec_getp_present (pixelRead_mono ht s.fb hl), exec_rdbit l.mask s hpos, toNat_colourOf_false]
  · rw [exec_setp_oneFrame (colourLegal_bool s.topo v) (.inl ht) (pixelWrite_mono ht s.fb _ hl), exec_wrbit l.mask v s hpos,
      planeBBit_bool]

/-- Settles O48: both flush the buffer that `fillAll` leaves; the RESP of FILLRAW is overwritten by the flush. -/
theorem monochromeFillIsFillrawThenFlush : Obligations.MonochromeFillIsFillrawThenFlush := by
  intro s v ht
  have hlegal : ∀ v : Bool, rawByteLegal (fillByte v) = true := by decide
  refine ⟨_, _, exec_fillraw s (hlegal v), exec_flush _, ?_⟩
  rw [exec_fill (colourLegal_bool s.topo v), fillMemory_mono ht, planeBBit_bool, State.complete, flushAndComplete_withResp]
  rfl

end Sys2Proof.Machine
end

section
/-! How a command ends (spec/60_exceptions.md R170 to R176): the dimension check of LOADIMG, and that no outcome stops the machine, so
that command words are accepted one after another. -/

namespace Sys2Proof.Machine

open Sys2Proof

/-! ### DimensionMismatch -/

theorem raise_dimensionMismatch (s : State) : s.raise .dimensionMismatch = { s with resp := 0x20000000#32 } := by
  rw [← respRaised_dimension]
  rfl

theorem sizeMatches_iff {t : Topology} {w h : Nat} : sizeMatches t w h = true ↔ w = columns t ∧ h = rows t := by
  rw [sizeMatches, Bool.and_eq_true, decide_eq_true_iff, decide_eq_true_iff]

theorem exec_loadimg_mismatch {s : State} {w h : Nat} (hsize : ¬sizeMatches s.topo w h = true) :
    exec (.loadimg w h) s = .next (s.raise .dimensionMismatch) :=
  congrArg Host.Outcome.next (if_neg hsize)

/-- Settles O26: a size that is not the matrix's raises DimensionMismatch before the buffer is touched. -/
theorem wrongSizeLoadimgOnlyWritesResp : Obligations.WrongSizeLoadimgOnlyWritesResp := by
  intro s w h hwrong
  have hsize : ¬sizeMatches s.topo w h = true := by
    rw [sizeMatches_iff, columns_eq, rows_eq]
    exact not_and_or.2 hwrong
  rw [exec_loadimg_mismatch hsize, raise_dimensionMismatch]

/-! ### No outcome stops the machine -/

/-- An instruction ends in a next state, and leaves the requests that wait. -/
theorem exec_next_port (i : Instr) (s : State) : ∃ t, exec i s = .next t ∧ t.port = s.port := by
  obtain ⟨t, hexec, -, -, -, -, -, hport, -⟩ := strapsAndHostSideNeverChange.1 i s
  exact ⟨t, hexec, hport⟩

/-- Settles O56, the first half of `exec_next_port`. -/
theorem everyInstructionEndsInANextState : Obligations.EveryInstructionEndsInANextState := fun i s =>
  let ⟨t, hexec, _⟩ := exec_next_port i s
  ⟨t, hexec⟩

theorem step_wait {s : State} (hport : s.port = []) : step s = .next s := by
  simp only [step, hport]

/-- A step on a command word, legal or not, takes that word from the port and ends in a next state (R68, R170). -/
theorem step_word_next {s : State} {w : Word} {src : Image} {later : List Request}
    (hport : s.port = { code := .word w, src := src } :: later) : ∃ t, step s = .next t ∧ t.port = later := by
  cases hdec : decodeWord w with
  | ok i =>
    rw [step_word hport hdec]
    exact exec_next_port i (s.accept w src later)
  | error e => exact ⟨_, step_undecodable hport hdec, rfl⟩

theorem OnlyWordsWait.step_next {s : State} (h : OnlyWordsWait s) : ∃ t, step s = .next t ∧ OnlyWordsWait t := by
  cases hport : s.port with
  | nil => exact ⟨s, step_wait hport, h⟩
  | cons r later =>
    obtain ⟨code, src⟩ := r
    rw [OnlyWordsWait, hport, List.forall_mem_cons] at h
    obtain ⟨⟨w, rfl⟩, hlater⟩ := h
    obtain ⟨t, hstep, ht⟩ := step_word_next hport
    exact ⟨t, hstep, by rwa [OnlyWordsWait, ht]⟩

/-- Settles O60, by induction on the number of steps: a step ends in a next state at which only words wait again. -/
theorem commandRunsAreNeverStopped : Obligations.CommandRunsAreNeverStopped := by
  intro n
  induction n with
  | zero => exact fun s _ => ⟨s, rfl⟩
  | succ n ih =>
    intro s h
    obtain ⟨t, hstep, ht⟩ := h.step_next
    rw [RunsOn, run_next hstep]
    exact ih t ht

end Sys2Proof.Machine
end

section
/-! What a failed bus write and the boot sequence leave (spec/70_reset_and_hazards.md R193, R195): after TRANSPORT_ERROR nothing is known
of DEV, since a command raises it only at the bus write that failed; and INIT with FILL Off make the state known again. -/

namespace Sys2Proof.Machine

open Sys2Proof

/-! ### TRANSPORT_ERROR leaves DEV unknown -/

/-- STATUS is the first field of a response word (R66). -/
@[simp] theorem respStatus_respWord (status : BitVec 4) (valid : Bool) (p1 p0 : Byte) :
    respStatus (respWord status valid p1 p0) = status := by
  rw [respStatus, respWord, BitVec.extractLsb'_append_eq_of_le (by decide), BitVec.extractLsb'_append_eq_of_le (by decide),
    BitVec.extractLsb'_append_eq_of_le (by decide), BitVec.extractLsb'_append_eq_of_le (by decide), BitVec.extractLsb'_eq_self]

/-- If the command that led here has ended in TRANSPORT_ERROR (STATUS 3), nothing is known of DEV. -/
def UnknownIfTransportError (t : State) : Prop := respStatus t.resp = 3#4 → t.dev = .unknown

namespace UnknownIfTransportError

theorem of_status {t : State} (h : respStatus t.resp ≠ 3#4) : UnknownIfTransportError t := fun h3 => absurd h3 h

theorem complete (s : State) : UnknownIfTransportError s.complete := of_status (by decide : respStatus respNothing ≠ 3#4)

theorem present (s : State) (p1 p0 : Byte) : UnknownIfTransportError (s.present p1 p0) := of_status (by simp [respPresent])

theorem illegalCommand (s : State) : UnknownIfTransportError (s.raise .illegalCommand) := of_status (by simp [respRaised])

theorem dimensionMismatch (s : State) : UnknownIfTransportError (s.raise .dimensionMismatch) := of_status (by simp [respRaised])

/-- A bus write inside a command: the answer that raises TransportError is the one that leaves the shadow unknown (R28, R173). -/
theorem send (s : State) (msg : BusMsg) {goOn : State → State} (hg : ∀ u, UnknownIfTransportError (goOn u)) :
    UnknownIfTransportError (s.send msg goOn) := by
  obtain ⟨-, he⟩ | ⟨e, herr, he⟩ := send_eq s msg goOn
  · rw [he]
    exact hg _
  · intro
    rw [he, State.raise_dev, State.afterBusWrite_dev, herr, devAfter_err]

theorem sendAndComplete (s : State) (msg : BusMsg) : UnknownIfTransportError (s.sendAndComplete msg) := send s msg complete

theorem flushAndComplete (s : State) : UnknownIfTransportError s.flushAndComplete := send s s.frameMsg complete

theorem setpOneFrame (x y : Int) (c : Colour) (s : State) : UnknownIfTransportError (Machine.setpOneFrame x y c s) := by
  rw [Machine.setpOneFrame]
  split
  · exact flushAndComplete _
  · exact complete s

theorem setpTwoFrames (la lb : BitLoc) (c : Colour) (s : State) : UnknownIfTransportError (Machine.setpTwoFrames la lb c s) :=
  send _ _ fun _ => flushAndComplete _

theorem runUnitShifts (wrap : Bool) : ∀ (ds : List Direction) (s : State), UnknownIfTransportError (Machine.runUnitShifts wrap ds s)
  | [], s => complete s
  | d :: ds, s => by
    obtain ⟨q, ⟨-, he⟩ | he⟩ := runUnitShifts_cons wrap d ds s
    · rw [he]
      exact runUnitShifts wrap ds _
    · rw [he]
      exact send _ _ (runUnitShifts wrap ds)

/-- A command that refuses an illegal operand with IllegalCommand (R62). -/
theorem orIllegal {p : Prop} [Decidable p] {u : State} (s : State) (h : UnknownIfTransportError u) :
    UnknownIfTransportError (if p then u else s.raise .illegalCommand) := by
  split
  · exact h
  · exact illegalCommand s

end UnknownIfTransportError

/-- Settles O58: a command raises TransportError at the bus write that failed, and that write left the shadow unknown. -/
theorem transportErrorLeavesTheDeviceUnknown : Obligations.TransportErrorLeavesTheDeviceUnknown := by
  intro i s hc
  change ∃ t, exec i s = .next t ∧ UnknownIfTransportError t
  cases i with
  | map x y p =>
    refine ⟨_, rfl, .orIllegal s ?_⟩
    split
    · exact .complete s
    · exact .present s _ _
  | getp x y =>
    refine ⟨_, rfl, ?_⟩
    split
    · exact .complete s
    · exact .present s _ _
  | setp x y c =>
    refine ⟨_, rfl, .orIllegal s ?_⟩
    split
    · split
      · exact .setpTwoFrames _ _ c s
      · exact .complete s
    · exact .setpOneFrame x y c s
  | fill c => exact ⟨_, rfl, .orIllegal s (.flushAndComplete _)⟩
  | loadimg w h =>
    refine ⟨_, rfl, ?_⟩
    split
    · exact .flushAndComplete _
    · exact .dimensionMismatch s
  | shift dx dy wrap => exact ⟨_, rfl, .runUnitShifts wrap _ s⟩
  | rdbit k m => exact ⟨_, rfl, .orIllegal s (.present s _ _)⟩
  | wrbit k m v => exact ⟨_, rfl, .orIllegal s (.flushAndComplete _)⟩
  | fillraw b => exact ⟨_, rfl, .orIllegal s (.complete _)⟩
  | flush => exact ⟨_, rfl, .flushAndComplete s⟩
  | init => exact ⟨_, rfl, .send s _ fun _ => .send _ _ fun _ => .sendAndComplete _ _⟩
  | blink rate => exact ⟨_, rfl, .sendAndComplete _ _⟩
  | bright level => exact ⟨_, rfl, .sendAndComplete _ _⟩
  | oscOn | blinkCmd | brightCmd | frame => cases hc

/-! ### The boot sequence -/

/-- INIT, all three of its bytes answered ok (R155). -/
theorem exec_init_allOk {s : State} (hok : AllOk s.sink) :
    ∃ t, exec .init s = .next t ∧ t.blink = 0#2 ∧ t.bright = 15#4 ∧ t.sink = sinkAfter^[3] s.sink := by
  obtain ⟨d, -, -, hexec, -⟩ := initSendsItsThreeBytesInOrder s
  exact ⟨_, hexec (sinkAnswer_iterate_of_allOk hok 0) (sinkAnswer_iterate_of_allOk hok 1), rfl, rfl, rfl⟩

/-- FILL Off, its frame answered ok (R114). -/
theorem exec_fill_off_ok {s : State} (hok : sinkAnswer s.sink = .ok) :
    ∃ u, exec (.fill Colour.off) s = .next u ∧ (∀ k, fbRead u.fb k = 0x00#8) ∧ u.blink = s.blink ∧ u.bright = s.bright ∧
      u.resp = 0x00000000#32 ∧ u.dev = .holds (Vector.replicate 16 0x00#8) := by
  obtain ⟨-, -, hfill⟩ := fillStoresEveryDataByte s Colour.off
  obtain ⟨m, u, hexec, ⟨d, rfl, hdev⟩, -, hbytes⟩ := hfill (.inr rfl)
  have hclear : ∀ k, fbRead m k = 0x00#8 := fun k => by
    by_cases hk : 1 ≤ k ∧ k ≤ 16
    · obtain ⟨h1, h16⟩ := hk
      simpa [Colour.off] using hbytes k h1 h16
    · exact fbRead_out m hk
  refine ⟨_, hexec, hclear, rfl, rfl, congrArg answerWord hok, ?_⟩
  rw [hdev hok]
  exact congrArg Dev.holds (Vector.ext fun k hk => by simp [fbData, hclear])

/-- Settles O59: INIT gives the registers, and FILL Off FB, RESP and DEV. -/
theorem bootSequenceMakesTheStateKnown : Obligations.BootSequenceMakesTheStateKnown := by
  intro s hok
  obtain ⟨t, hinit, hblink, hbright, hsink⟩ := exec_init_allOk hok
  obtain ⟨u, hfill, hfb, hblink', hbright', hresp, hdev⟩ :=
    exec_fill_off_ok (s := t) (by rw [hsink]; exact sinkAnswer_iterate_of_allOk hok 3)
  exact ⟨t, u, hinit, hfill, hfb, hblink'.trans hblink, hbright'.trans hbright, hresp, hdev⟩

end Sys2Proof.Machine
end
